-- ==== Sys2Proof/Word.lean ====
section
/-! DEFINITION. The word types of the CORE (spec 00_scope R6, R8): every value is unsigned and of a stated width. -/

namespace Sys2Proof

/-- An 8-bit unsigned value: a general register, a timer, the stack pointer, a memory byte (R6 `XLEN`). -/
abbrev Byte := BitVec 8

/-- A 16-bit unsigned value: `PC`, `I`, `IR`, a stack slot, an opcode (R6 `PCLEN`, `ILEN`). -/
abbrev Word := BitVec 16

/-- A 4-bit unsigned value: a register number `x` or `y`, a key number, the sprite height `n` (R92). -/
abbrev Nibble := BitVec 4

/-- A 12-bit unsigned value: the literal address `nnn` (R92). -/
abbrev Addr12 := BitVec 12

/-- The size of `MEM` in bytes (R6 `MEM_SIZE`). -/
abbrev memSize : Nat := 4096

end Sys2Proof
end

