-- ==== Sys2Proof/Syntax.lean ====
section
/-! DEFINITION. The instructions: one constructor per row of spec/opcode_table.json (30_encoding R97), in its order.
Each operand has exactly the width of its field (R92, R94), so no operand can be out of range. -/

namespace Sys2Proof

/-- The 34 instructions of R97. `x` and `y` are register numbers, `n`, `nn` and `nnn` unsigned literals. -/
inductive Instr where
  /-- 00E0: clear the display (R180). -/
  | cls
  /-- 00EE: return from subroutine (R121). -/
  | ret
  /-- 1nnn: jump (R122). -/
  | jp (nnn : Addr12)
  /-- 2nnn: call subroutine (R123). -/
  | call (nnn : Addr12)
  /-- 3xnn: skip if register equals byte (R124). -/
  | sei (x : Nibble) (nn : Byte)
  /-- 4xnn: skip if register differs from byte (R125). -/
  | snei (x : Nibble) (nn : Byte)
  /-- 5xy0: skip if registers equal (R126). -/
  | se (x y : Nibble)
  /-- 6xnn: load byte (R140). -/
  | ldi (x : Nibble) (nn : Byte)
  /-- 7xnn: add byte (R141). -/
  | addi (x : Nibble) (nn : Byte)
  /-- 8xy0: copy (R142). -/
  | mov (x y : Nibble)
  /-- 8xy1: bitwise OR (R143). -/
  | or (x y : Nibble)
  /-- 8xy2: bitwise AND (R144). -/
  | and (x y : Nibble)
  /-- 8xy3: bitwise exclusive OR (R145). -/
  | xor (x y : Nibble)
  /-- 8xy4: add registers (R146). -/
  | add (x y : Nibble)
  /-- 8xy5: subtract (R147). -/
  | sub (x y : Nibble)
  /-- 8xy6: shift right by one, to both registers (R148). -/
  | shr (x y : Nibble)
  /-- 8xy7: reverse subtract (R149). -/
  | subn (x y : Nibble)
  /-- 8xyE: shift left by one, to both registers (R150). -/
  | shl (x y : Nibble)
  /-- 9xy0: skip if registers differ (R127). -/
  | sne (x y : Nibble)
  /-- Annn: load index (R160). -/
  | ldix (nnn : Addr12)
  /-- Bnnn: jump to address plus V0 (R128). -/
  | jp0 (nnn : Addr12)
  /-- Cxnn: random byte under a mask (R190). -/
  | rnd (x : Nibble) (nn : Byte)
  /-- Dxyn: draw a sprite by XOR (R181). -/
  | drw (x y n : Nibble)
  /-- Ex9E: skip if the key is pressed (R191). -/
  | skp (x : Nibble)
  /-- ExA1: skip if the key is not pressed (R192). -/
  | sknp (x : Nibble)
  /-- Fx07: read the delay timer (R193). -/
  | gdt (x : Nibble)
  /-- Fx0A: wait for a key press (R194). -/
  | keyw (x : Nibble)
  /-- Fx15: set the delay timer (R195). -/
  | sdt (x : Nibble)
  /-- Fx18: set the sound timer (R196). -/
  | sst (x : Nibble)
  /-- Fx1E: add register to index (R161). -/
  | addix (x : Nibble)
  /-- Fx29: point index at a font glyph (R162). -/
  | font (x : Nibble)
  /-- Fx33: store the three decimal digits (R163). -/
  | bcd (x : Nibble)
  /-- Fx55: store registers (R165). -/
  | stm (x : Nibble)
  /-- Fx65: load registers (R166). -/
  | ldm (x : Nibble)
  deriving DecidableEq, Repr

end Sys2Proof
end

