-- ==== Sys2Proof/WellFormed.lean ====
section
/-! DEFINITION. Which operands and which words are legal (30_encoding R92, R94, R95, R98). -/

namespace Sys2Proof

/-- A number fits a field of `w` bits. -/
def fitsField (w n : Nat) : Bool := decide (n < 2 ^ w)

/-- Register numbers, key numbers and the sprite height are 4 bits (R92). -/
def fitsNibble (n : Nat) : Bool := fitsField 4 n

/-- The literal `nn` is 8 bits (R92). -/
def fitsByte (n : Nat) : Bool := fitsField 8 n

/-- The literal `nnn` is 12 bits (R92). -/
def fitsAddr (n : Nat) : Bool := fitsField 12 n

/-- Every operand of the instruction fits its field (R92, R94). The operand types have exactly the fields' widths, so
every instruction passes: "`x` and `y` are register numbers 0 to 15 and every value is a valid register". -/
def Instr.wellFormed : Instr → Bool
  | .cls | .ret => true
  | .jp nnn | .call nnn | .ldix nnn | .jp0 nnn => fitsAddr nnn.toNat
  | .sei x nn | .snei x nn | .ldi x nn | .addi x nn | .rnd x nn => fitsNibble x.toNat && fitsByte nn.toNat
  | .se x y | .mov x y | .or x y | .and x y | .xor x y | .add x y | .sub x y | .shr x y | .subn x y | .shl x y
  | .sne x y => fitsNibble x.toNat && fitsNibble y.toNat
  | .drw x y n => fitsNibble x.toNat && fitsNibble y.toNat && fitsNibble n.toNat
  | .skp x | .sknp x | .gdt x | .keyw x | .sdt x | .sst x | .addix x | .font x | .bcd x | .stm x | .ldm x =>
    fitsNibble x.toNat

/-- The legal words, by the second-level keys of R95: the family alone decides in families 1, 2, 3, 4, 6, 7, A, B, C
and D, and families 0, 5, 8, 9, E and F compare the rest of the printed pattern. Every other word is one of the 21582
illegal words of R98. -/
def legalWord (w : Word) : Bool :=
  let op := w.toNat / 4096
  let low12 := w.toNat % 4096
  let low8 := w.toNat % 256
  let low4 := w.toNat % 16
  if op = 0x0 then low12 == 0x0E0 || low12 == 0x0EE
  else if op = 0x5 then low4 == 0
  else if op = 0x8 then decide (low4 ≤ 7) || low4 == 0xE
  else if op = 0x9 then low4 == 0
  else if op = 0xE then low8 == 0x9E || low8 == 0xA1
  else if op = 0xF then [0x07, 0x0A, 0x15, 0x18, 0x1E, 0x29, 0x33, 0x55, 0x65].contains low8
  else true

end Sys2Proof
end

