-- ==== Sys2Proof/Decode.lean ====
section
/-! DEFINITION. Decoding (30_encoding R90 to R98), the opcode rows of R97, and the encoder (R93, R102). -/

namespace Sys2Proof

/-- Why bytes are not an instruction. -/
inductive DecodeError where
  /-- Fewer than the two bytes every instruction has (R92). -/
  | truncated
  /-- No row of R97 matches the word: it is named with its family, bits 15 to 12 (R98, R211). -/
  | unknownInstruction (w : Word) (family : Nibble)
  deriving DecidableEq, Repr

/-! ## Fields (R92) -/

/-- `op`, bits 15 to 12: the family. -/
def opField (w : Word) : Nibble := w.extractLsb' 12 4
/-- `x`, bits 11 to 8. -/
def xField (w : Word) : Nibble := w.extractLsb' 8 4
/-- `y`, bits 7 to 4. -/
def yField (w : Word) : Nibble := w.extractLsb' 4 4
/-- `n`, bits 3 to 0. -/
def nField (w : Word) : Nibble := w.extractLsb' 0 4
/-- `nn`, bits 7 to 0. -/
def nnField (w : Word) : Byte := w.extractLsb' 0 8
/-- `nnn`, bits 11 to 0. -/
def nnnField (w : Word) : Addr12 := w.extractLsb' 0 12

/-- Two bytes as one word, the byte at the lower address the more significant half (R63, R91). -/
def wordOfBytes (hi lo : Byte) : Word := hi ++ lo

/-- A word as the hardware stores it, high byte first (R63). -/
def bytesOfWord (w : Word) : List Byte := [w.extractLsb' 8 8, w.extractLsb' 0 8]

/-! ## Decoding -/

/-- Family 0, keyed by bits 11 to 0 (R95). -/
def decodeFamily0 (w : Word) : Option Instr :=
  if nnnField w = 0x0E0 then some .cls
  else if nnnField w = 0x0EE then some .ret
  else none

/-- Family 5, keyed by bits 3 to 0 (R95). -/
def decodeFamily5 (w : Word) : Option Instr :=
  if nField w = 0x0 then some (.se (xField w) (yField w)) else none

/-- Family 8, keyed by bits 3 to 0 (R95). -/
def decodeFamily8 (w : Word) : Option Instr :=
  match (nField w).toNat with
  | 0x0 => some (.mov (xField w) (yField w))
  | 0x1 => some (.or (xField w) (yField w))
  | 0x2 => some (.and (xField w) (yField w))
  | 0x3 => some (.xor (xField w) (yField w))
  | 0x4 => some (.add (xField w) (yField w))
  | 0x5 => some (.sub (xField w) (yField w))
  | 0x6 => some (.shr (xField w) (yField w))
  | 0x7 => some (.subn (xField w) (yField w))
  | 0xE => some (.shl (xField w) (yField w))
  | _ => none

/-- Family 9, keyed by bits 3 to 0 (R95). -/
def decodeFamily9 (w : Word) : Option Instr :=
  if nField w = 0x0 then some (.sne (xField w) (yField w)) else none

/-- Family E, keyed by bits 7 to 0 (R95). -/
def decodeFamilyE (w : Word) : Option Instr :=
  if nnField w = 0x9E then some (.skp (xField w))
  else if nnField w = 0xA1 then some (.sknp (xField w))
  else none

/-- Family F, keyed by bits 7 to 0 (R95). -/
def decodeFamilyF (w : Word) : Option Instr :=
  if nnField w = 0x07 then some (.gdt (xField w))
  else if nnField w = 0x0A then some (.keyw (xField w))
  else if nnField w = 0x15 then some (.sdt (xField w))
  else if nnField w = 0x18 then some (.sst (xField w))
  else if nnField w = 0x1E then some (.addix (xField w))
  else if nnField w = 0x29 then some (.font (xField w))
  else if nnField w = 0x33 then some (.bcd (xField w))
  else if nnField w = 0x55 then some (.stm (xField w))
  else if nnField w = 0x65 then some (.ldm (xField w))
  else none

/-- The two-level dispatch of R95: the family first, then its second-level key. -/
def matchRow (w : Word) : Option Instr :=
  match (opField w).toNat with
  | 0x0 => decodeFamily0 w
  | 0x1 => some (.jp (nnnField w))
  | 0x2 => some (.call (nnnField w))
  | 0x3 => some (.sei (xField w) (nnField w))
  | 0x4 => some (.snei (xField w) (nnField w))
  | 0x5 => decodeFamily5 w
  | 0x6 => some (.ldi (xField w) (nnField w))
  | 0x7 => some (.addi (xField w) (nnField w))
  | 0x8 => decodeFamily8 w
  | 0x9 => decodeFamily9 w
  | 0xA => some (.ldix (nnnField w))
  | 0xB => some (.jp0 (nnnField w))
  | 0xC => some (.rnd (xField w) (nnField w))
  | 0xD => some (.drw (xField w) (yField w) (nField w))
  | 0xE => decodeFamilyE w
  | 0xF => decodeFamilyF w
  | _ => none

/-- Decode a word: one of the 34 instructions with its fields, or the illegal word by name with its family (R90, R95,
R98). A function of the word alone. -/
def decodeWord (w : Word) : Except DecodeError Instr :=
  match matchRow w with
  | some i => .ok i
  | none => .error (.unknownInstruction w (opField w))

/-- Decode the instruction at the front of a list of bytes, with the bytes that are left. Every instruction is
exactly two bytes (R92), the first the high one (R63). -/
def decodeBytes : List Byte → Except DecodeError (Instr × List Byte)
  | hi :: lo :: rest =>
    match decodeWord (wordOfBytes hi lo) with
    | .ok i => .ok (i, rest)
    | .error e => .error e
  | _ => .error .truncated

/-- A word of the opcode table as the hardware stores it: `nbits` bits of `w` and zeros above, high byte first. -/
def tableBytes (nbits w : Nat) : List Byte := bytesOfWord (BitVec.ofNat 16 (w % 2 ^ nbits))

/-- What the decoder reads from an instruction whose bits are `w`, numbered as spec/opcode_table.json numbers them. -/
def decodeTableWord (nbits w : Nat) : Option Instr :=
  match decodeBytes (tableBytes nbits w) with
  | .ok (i, _) => some i
  | .error _ => none

/-! ## Encoding (R93, R102): `match | (x << 8) | (y << 4) | literal` -/

/-- Format `ADDR`. -/
def encAddr (pat : Word) (nnn : Addr12) : Word := pat ||| nnn.setWidth 16
/-- Format `REG_IMM`. -/
def encRegImm (pat : Word) (x : Nibble) (nn : Byte) : Word := pat ||| x.setWidth 16 <<< 8 ||| nn.setWidth 16
/-- Format `REG_REG`, with `n` the function code or the literal. -/
def encRegReg (pat : Word) (x y n : Nibble) : Word :=
  pat ||| x.setWidth 16 <<< 8 ||| y.setWidth 16 <<< 4 ||| n.setWidth 16
/-- Format `REG_FN`. -/
def encRegFn (pat : Word) (x : Nibble) : Word := pat ||| x.setWidth 16 <<< 8

/-- The word of an instruction (R93, R97, R102). -/
def encode : Instr → Word
  | .cls => 0x00E0
  | .ret => 0x00EE
  | .jp nnn => encAddr 0x1000 nnn
  | .call nnn => encAddr 0x2000 nnn
  | .sei x nn => encRegImm 0x3000 x nn
  | .snei x nn => encRegImm 0x4000 x nn
  | .se x y => encRegReg 0x5000 x y 0x0
  | .ldi x nn => encRegImm 0x6000 x nn
  | .addi x nn => encRegImm 0x7000 x nn
  | .mov x y => encRegReg 0x8000 x y 0x0
  | .or x y => encRegReg 0x8000 x y 0x1
  | .and x y => encRegReg 0x8000 x y 0x2
  | .xor x y => encRegReg 0x8000 x y 0x3
  | .add x y => encRegReg 0x8000 x y 0x4
  | .sub x y => encRegReg 0x8000 x y 0x5
  | .shr x y => encRegReg 0x8000 x y 0x6
  | .subn x y => encRegReg 0x8000 x y 0x7
  | .shl x y => encRegReg 0x8000 x y 0xE
  | .sne x y => encRegReg 0x9000 x y 0x0
  | .ldix nnn => encAddr 0xA000 nnn
  | .jp0 nnn => encAddr 0xB000 nnn
  | .rnd x nn => encRegImm 0xC000 x nn
  | .drw x y n => encRegReg 0xD000 x y n
  | .skp x => encRegFn 0xE09E x
  | .sknp x => encRegFn 0xE0A1 x
  | .gdt x => encRegFn 0xF007 x
  | .keyw x => encRegFn 0xF00A x
  | .sdt x => encRegFn 0xF015 x
  | .sst x => encRegFn 0xF018 x
  | .addix x => encRegFn 0xF01E x
  | .font x => encRegFn 0xF029 x
  | .bcd x => encRegFn 0xF033 x
  | .stm x => encRegFn 0xF055 x
  | .ldm x => encRegFn 0xF065 x

/-! ## The opcode map (R97) -/

/-- The pattern of an instruction's row in R97 as (match, mask): a word `w` is that instruction exactly when
`w & mask = match`. Copied from the columns of the table, not computed from the decoder or the encoder. -/
def Instr.row : Instr → Word × Word
  | .cls => (0x00E0, 0xFFFF)
  | .ret => (0x00EE, 0xFFFF)
  | .jp _ => (0x1000, 0xF000)
  | .call _ => (0x2000, 0xF000)
  | .sei _ _ => (0x3000, 0xF000)
  | .snei _ _ => (0x4000, 0xF000)
  | .se _ _ => (0x5000, 0xF00F)
  | .ldi _ _ => (0x6000, 0xF000)
  | .addi _ _ => (0x7000, 0xF000)
  | .mov _ _ => (0x8000, 0xF00F)
  | .or _ _ => (0x8001, 0xF00F)
  | .and _ _ => (0x8002, 0xF00F)
  | .xor _ _ => (0x8003, 0xF00F)
  | .add _ _ => (0x8004, 0xF00F)
  | .sub _ _ => (0x8005, 0xF00F)
  | .shr _ _ => (0x8006, 0xF00F)
  | .subn _ _ => (0x8007, 0xF00F)
  | .shl _ _ => (0x800E, 0xF00F)
  | .sne _ _ => (0x9000, 0xF00F)
  | .ldix _ => (0xA000, 0xF000)
  | .jp0 _ => (0xB000, 0xF000)
  | .rnd _ _ => (0xC000, 0xF000)
  | .drw _ _ _ => (0xD000, 0xF000)
  | .skp _ => (0xE09E, 0xF0FF)
  | .sknp _ => (0xE0A1, 0xF0FF)
  | .gdt _ => (0xF007, 0xF0FF)
  | .keyw _ => (0xF00A, 0xF0FF)
  | .sdt _ => (0xF015, 0xF0FF)
  | .sst _ => (0xF018, 0xF0FF)
  | .addix _ => (0xF01E, 0xF0FF)
  | .font _ => (0xF029, 0xF0FF)
  | .bcd _ => (0xF033, 0xF0FF)
  | .stm _ => (0xF055, 0xF0FF)
  | .ldm _ => (0xF065, 0xF0FF)

/-- The 34 rows of R97 as (match, mask), in the spec's order. -/
def opcodeRows : List (Word × Word) :=
  [(0x00E0, 0xFFFF), (0x00EE, 0xFFFF), (0x1000, 0xF000), (0x2000, 0xF000), (0x3000, 0xF000), (0x4000, 0xF000),
   (0x5000, 0xF00F), (0x6000, 0xF000), (0x7000, 0xF000)] ++
  [(0x8000, 0xF00F), (0x8001, 0xF00F), (0x8002, 0xF00F), (0x8003, 0xF00F), (0x8004, 0xF00F), (0x8005, 0xF00F),
   (0x8006, 0xF00F), (0x8007, 0xF00F), (0x800E, 0xF00F)] ++
  [(0x9000, 0xF00F), (0xA000, 0xF000), (0xB000, 0xF000), (0xC000, 0xF000), (0xD000, 0xF000)] ++
  [(0xE09E, 0xF0FF), (0xE0A1, 0xF0FF), (0xF007, 0xF0FF), (0xF00A, 0xF0FF), (0xF015, 0xF0FF), (0xF018, 0xF0FF),
   (0xF01E, 0xF0FF), (0xF029, 0xF0FF), (0xF033, 0xF0FF), (0xF055, 0xF0FF), (0xF065, 0xF0FF)]

/-- A word matches a row (R97). -/
def rowMatches (w : Word) (r : Word × Word) : Bool := w &&& r.2 == r.1

end Sys2Proof
end

