-- ==== Sys2Proof/Config.lean ====
section
/-! DEFINITION. What the source leaves open (spec 00_scope R7): the three named parameters, as plain data that the
state carries unchanged, and the random byte, as a constant without a body. -/

namespace Sys2Proof

/-- Parameter `ADDSUB_FLAG` (R7, R146, R147; 92 D4): whether 8xy4 and 8xy5 write VF. -/
inductive AddSubFlag where
  /-- 8xy4 and 8xy5 leave VF alone: the table as printed, the spec's default. -/
  | none
  /-- 8xy4 writes the carry and 8xy5 the strict greater-than to VF, before the result. -/
  | carryBorrow
  deriving DecidableEq, Repr

/-- Parameter `LOAD_POLICY` (R7, R245; 92 D21): what a load that does not fit does. -/
inductive LoadPolicy where
  /-- The load fails with `OutOfBounds` and writes nothing: the spec's default. -/
  | reject
  /-- The bytes that fit are written and the rest dropped without error. -/
  | truncate
  deriving DecidableEq, Repr

/-- The parameters the source leaves open, fixed for one machine (R7). They are plain data in the state, which no
step changes, so that a claim about every state is a claim about every value of them.
DESIGN CHOICE (log entries 4, 5, 6). -/
structure Params where
  /-- `ADDSUB_FLAG`. -/
  addSubFlag : AddSubFlag
  /-- `LOAD_POLICY`. -/
  loadPolicy : LoadPolicy
  /-- `FONT`, the 80 bytes that reset writes at 0x000 to 0x04F (R242). -/
  font       : Vector Byte 80
  deriving DecidableEq, Repr

/-- The eight glyphs 0 to 7 of the customary font, five bytes each (the table of R242). -/
def Config.fontLow : List Byte :=
  [0xF0, 0x90, 0x90, 0x90, 0xF0] ++ [0x20, 0x60, 0x20, 0x20, 0x70] ++ [0xF0, 0x10, 0xF0, 0x80, 0xF0] ++
  [0xF0, 0x10, 0xF0, 0x10, 0xF0] ++ [0x90, 0x90, 0xF0, 0x10, 0x10] ++ [0xF0, 0x80, 0xF0, 0x10, 0xF0] ++
  [0xF0, 0x80, 0xF0, 0x90, 0xF0] ++ [0xF0, 0x10, 0x20, 0x40, 0x40]

/-- The eight glyphs 8 to F of the customary font, five bytes each (the table of R242). -/
def Config.fontHigh : List Byte :=
  [0xF0, 0x90, 0xF0, 0x90, 0xF0] ++ [0xF0, 0x90, 0xF0, 0x10, 0xF0] ++ [0xF0, 0x90, 0xF0, 0x90, 0x90] ++
  [0xE0, 0x90, 0xE0, 0x90, 0xE0] ++ [0xF0, 0x80, 0x80, 0x80, 0xF0] ++ [0xE0, 0x90, 0x90, 0x90, 0xE0] ++
  [0xF0, 0x80, 0xF0, 0x80, 0xF0] ++ [0xF0, 0x80, 0xF0, 0x80, 0x80]

/-- The default of `FONT`. PRESUMED (log entry 5): the spec marks these bytes as general knowledge, not in source. -/
def Config.defaultFont : Vector Byte 80 :=
  ⟨(Config.fontLow ++ Config.fontHigh).toArray, by decide⟩

/-- The spec's defaults of R7: `NONE`, `REJECT`, and the customary font. -/
def Config.defaults : Params :=
  { addSubFlag := .none, loadPolicy := .reject, font := Config.defaultFont }

/-- The value of the input `rnd[7:0]` at the draw of the given number (R46, R190; 92 D13): a free value. It has no
body on purpose, so a claim holds whatever the draws are. Log entry 3. -/
opaque Config.rnd : Nat → Byte

end Sys2Proof
end

