-- ==== Sys2Proof/Machine/State.lean ====
section
/-! DEFINITION. The state of the CORE as plain data (10_state R20 to R35, R47), the events of the agents beside it
(10_state R40 to R45), and why a step can stop. -/

namespace Sys2Proof.Machine

/-- `MEM` (R29): the bytes that differ from what an unlisted address reads as, by rising address. -/
abbrev Memory := List Host.Cell

/-- The fault causes of R210, with the codes of its first column. -/
inductive Cause where
  | unknownInstruction
  | outOfBounds
  | stackOverflow
  | stackUnderflow
  | memoryFault
  | keyIndexFault
  deriving DecidableEq, Repr

/-- What an instruction cycle raises: a cause with the information that R210 records for it. -/
inductive CoreFault where
  /-- An illegal word: `IR` and the family `IR[15:12]` (R211). -/
  | unknownInstruction (ir : Word) (family : Nibble)
  /-- 2nnn with the stack full: `IR` (R212). -/
  | stackOverflow (ir : Word)
  /-- 00EE with the stack empty: `IR` (R213). -/
  | stackUnderflow (ir : Word)
  /-- An access above 0xFFF: the lowest offending address (R214). -/
  | memoryFault (addr : Word)
  /-- A key number above 15: the register's value (R215). -/
  | keyIndexFault (value : Byte)
  deriving DecidableEq, Repr

/-- The fault record (R35; 92 D10): the cause with its datum, and the `PC` and `IR` at the fault. -/
structure FaultRecord where
  datum : CoreFault
  pc    : Word
  ir    : Word
  deriving DecidableEq, Repr

/-- `RUN`, the run state (R34). -/
inductive Run where
  /-- The next step request executes one instruction cycle. -/
  | running
  /-- Fx0A has issued its key request for `V[x]`. -/
  | waitKey (x : Nibble)
  /-- A fault has been raised; only reset leaves this state. -/
  | halted (c : Cause)
  deriving DecidableEq, Repr

/-- One action of an agent other than the step driver (R5, R40 to R45), atomic with respect to every instruction
cycle (R69). -/
inductive Event where
  /-- The timer driver's decrement request for `DT` (R42). -/
  | tickDt
  /-- The timer driver's decrement request for `ST` (R42). -/
  | tickSt
  /-- The input collaborator presses (`true`) or releases (`false`) a key (R43). -/
  | setKey (k : Nibble) (pressed : Bool)
  /-- The input collaborator offers a key value in answer to a key request (R43, R194). -/
  | keyEvent (k : Nibble)
  /-- The display consumer reads `DISP` (R44). -/
  | readDisplay
  /-- The loader writes bytes from an offset on (R45, R244, R245). -/
  | load (offset : Nat) (bytes : List Byte)
  /-- The `reset` input (R240, R241). -/
  | reset
  deriving DecidableEq, Repr

/-- The whole state. The fields down to `fault` are the spec's (R47's table); the four after it are the model's own. -/
structure State where
  /-- `V[0]` to `V[15]`; VF is `V[15]` (R20, R21). -/
  v        : Vector Byte 16
  /-- The index register (R24). -/
  i        : Word
  /-- The program counter (R22, R23). -/
  pc       : Word
  /-- The stack pointer: the next free slot (R26, R27). -/
  sp       : Byte
  /-- `STACK[0]` to `STACK[15]` (R25). -/
  stack    : Vector Word 16
  /-- `MEM` (R29). -/
  mem      : Memory
  /-- `DISP` (R30), one word per row `py`; pixel `px` of a row is its bit `px` (log entry 14). -/
  disp     : Vector (BitVec 64) 32
  /-- The delay timer (R28). -/
  dt       : Byte
  /-- The sound timer (R28). -/
  st       : Byte
  /-- `KEY[0]` to `KEY[15]` (R31). -/
  key      : Vector Bool 16
  /-- The current opcode (R32). -/
  ir       : Word
  /-- The run state (R34). -/
  run      : Run
  /-- The fault record (R35). -/
  fault    : Option FaultRecord
  /-- The model's own: a step request has been taken since reset, so the loader is out (R45; log entry 8). -/
  started  : Bool
  /-- The model's own: the number of random bytes drawn so far (R190; log entry 3). -/
  draws    : Nat
  /-- The model's own: the open parameters of R7, which no step changes (log entries 4, 5, 6). -/
  params   : Params
  /-- The model's own: what the other agents will do, one batch for each coming step request, the batch acting before
  it; after the last batch nobody acts (R41 to R45; log entry 2). -/
  schedule : List (List Event)
  deriving DecidableEq, Repr

/-- Why the machine stops outside the core's own fault mechanism. A fault of the core is not here: the spec describes
its entry (R217), so it is a next state, with `run` halted. -/
inductive Fault where
  /-- `OutOfBounds` (R216, R245): raised by the loader agent's `load`, under `LOAD_POLICY = REJECT`, "fatal at load
  time, before any instruction executes"; no instruction raises it. Safe: nothing is written and the machine stops. -/
  | outOfBounds (offset length : Nat)
  deriving DecidableEq, Repr

/-- Why an instruction has no meaning. -/
inductive Refusal where
  /-- An instruction the model has no meaning for yet: raised by an arm of `exec` only. No arm raises it now: all 34
  instructions are modelled. Safe. -/
  | notModelled (mnemonic : String)
  deriving DecidableEq, Repr

/-- The state that reset leaves (R47, R240), given the parameters, what is left of the schedule, and the number of the
next random draw: the three belong to the outside world and a reset does not touch them. -/
def State.afterReset (params : Params) (draws : Nat) (schedule : List (List Event)) : State :=
  { v := Vector.replicate 16 0
    i := 0x0000
    pc := 0x0200
    sp := 0x00
    stack := Vector.replicate 16 0
    mem := []
    disp := Vector.replicate 32 0
    dt := 0x00
    st := 0x00
    key := Vector.replicate 16 false
    ir := 0x0000
    run := .running
    fault := none
    started := false
    draws := draws
    params := params
    schedule := schedule }

/-- The machine right after reset (R47, R240), with the spec's default parameters (R7), the first draw next and no
action of another agent pending (log entries 2 to 6). -/
def State.reset : State := State.afterReset Config.defaults 0 []

end Sys2Proof.Machine
end

