-- ==== Sys2Proof/Machine/Ops.lean ====
section
/-! DEFINITION. The named operations over memory, registers, stack and display, fault entry, and the advance of `PC`. -/

namespace Sys2Proof.Machine

/-- What a meaning or a step answers. -/
abbrev Result := Host.Outcome State Fault Refusal

/-- Go on with the next state, if there is one. -/
def andThen (o : Result) (f : State → Result) : Result :=
  match o with
  | .next s => f s
  | .fault e => .fault e
  | .refused r => .refused r

/-! ## Memory (20_memory R60 to R68) -/

/-- What an address that memory does not list reads as: its contents after reset, the font below 0x050 and 0x00
elsewhere (R47, R240, R242). -/
def Memory.unlisted (font : Vector Byte 80) (a : Nat) : Byte :=
  if h : a < 80 then font[a] else 0x00

/-- The canonical form: addresses strictly rising and inside the space, and no cell equal to what its address reads
as when unlisted. -/
abbrev Memory.wf (font : Vector Byte 80) (m : Memory) : Prop :=
  m.Pairwise (fun c d => c.1 < d.1) ∧ ∀ c ∈ m, c.1 < memSize ∧ c.2 ≠ Memory.unlisted font c.1

/-- The byte at an address. -/
def Memory.read (font : Vector Byte 80) : Memory → Nat → Byte
  | [], a => Memory.unlisted font a
  | c :: rest, a => if c.1 = a then c.2 else Memory.read font rest a

/-- Memory without a cell for the address. -/
def Memory.erase (m : Memory) (a : Nat) : Memory := m.filter (fun c => c.1 ≠ a)

/-- Memory with one more cell, before the first cell of a higher address. -/
def Memory.insert (c : Host.Cell) : Memory → Memory
  | [] => [c]
  | d :: rest => if c.1 < d.1 then c :: d :: rest else d :: Memory.insert c rest

/-- Memory with the byte at an address replaced, in canonical form. -/
def Memory.write (font : Vector Byte 80) (m : Memory) (a : Nat) (b : Byte) : Memory :=
  if b = Memory.unlisted font a then m.erase a else Memory.insert (a, b) (m.erase a)

/-- Memory with bytes written from an address on, in ascending order (R65). -/
def Memory.writeFrom (font : Vector Byte 80) (m : Memory) (a : Nat) : List Byte → Memory
  | [] => m
  | b :: bs => Memory.writeFrom font (Memory.write font m a b) (a + 1) bs

/-- The byte `MEM[a]` of a state, for `a` in 0x000 to 0xFFF (R9, R29). -/
def State.byteAt (s : State) (a : Nat) : Byte := Memory.read s.params.font s.mem a

/-- The state with `MEM[a]` replaced, for `a` in 0x000 to 0xFFF. -/
def State.setByteAt (s : State) (a : Nat) (b : Byte) : State :=
  { s with mem := Memory.write s.params.font s.mem a b }

/-- The `n` bytes from an address on, in ascending order (R65). -/
def State.bytesFrom (s : State) (a : Nat) : Nat → List Byte
  | 0 => []
  | n + 1 => s.byteAt a :: s.bytesFrom (a + 1) n

/-- The state with bytes written from an address on, in ascending order (R65). -/
def State.setBytesFrom (s : State) (a : Nat) (bs : List Byte) : State :=
  { s with mem := Memory.writeFrom s.params.font s.mem a bs }

/-- `MemRead(a, 1)` (R10, R67): the byte, or `MemoryFault(a)` above 0xFFF; no wrap and no mask. -/
def memRead (s : State) (a : Word) : Except CoreFault Byte :=
  if a.toNat ≤ 0xFFF then .ok (s.byteAt a.toNat) else .error (.memoryFault a)

/-- The check before any effect (R68): a block of `n` bytes at `I` whose highest address exceeds 0xFFF raises
`MemoryFault(max(I, 0x1000))`; a block of no bytes cannot fault. -/
def spanFault (base : Word) (n : Nat) : Option CoreFault :=
  if 0 < n ∧ 0xFFF < base.toNat + n - 1 then
    some (.memoryFault (if base.toNat < 0x1000 then 0x1000 else base))
  else none

/-! ## Fault entry (60_exceptions R217) -/

/-- The cause of a raised fault (R210). -/
def CoreFault.cause : CoreFault → Cause
  | .unknownInstruction _ _ => .unknownInstruction
  | .stackOverflow _ => .stackOverflow
  | .stackUnderflow _ => .stackUnderflow
  | .memoryFault _ => .memoryFault
  | .keyIndexFault _ => .keyIndexFault

/-- The code of a cause, the first column of R210 (92 D11). -/
def Cause.code : Cause → Nat
  | .unknownInstruction => 1
  | .outOfBounds => 2
  | .stackOverflow => 3
  | .stackUnderflow => 4
  | .memoryFault => 5
  | .keyIndexFault => 6

/-- The state after fault entry: the record is set and the core is halted; nothing else is written (R217). -/
def State.raised (s : State) (f : CoreFault) : State :=
  { s with run := .halted f.cause, fault := some { datum := f, pc := s.pc, ir := s.ir } }

/-- `raise F(info)` (R10, R217): the one fault entry of the machine. It is applied to the state the instruction
started from, so none of the instruction's writes is made and `PC` stays at the instruction. Log entry 1. -/
def raise (f : CoreFault) (s : State) : Result := .next (s.raised f)

/-! ## The program counter (40_control_flow R120) -/

/-- `PC <- (PC + k) mod 65536`. -/
def State.advance (s : State) (k : Word) : State := { s with pc := s.pc + k }

/-- The state with `PC` replaced: "jump/call/skip instructions set PC explicitly" (R120). -/
def State.jumpTo (s : State) (a : Word) : State := { s with pc := a }

/-- `next` (R10): the last action of every instruction that R120 does not list. -/
def next (s : State) : Result := .next (s.advance 2)

/-- `skip` when the condition holds, else `next` (R10, R120). -/
def skipIf (c : Bool) (s : State) : Result := .next (s.advance (if c then 4 else 2))

/-- `next` on the written state `t`, unless the block of `n` bytes at `I` leaves memory: then the fault, from the
state `s` before any effect (R68). -/
def nextInSpan (n : Nat) (s t : State) : Result :=
  match spanFault s.i n with
  | some f => raise f s
  | none => next t

/-! ## Registers (10_state R20, R21) -/

/-- `V[x]`. -/
def State.getV (s : State) (x : Nibble) : Byte := s.v[x.toNat]'x.isLt

/-- `V[x] <- b`. -/
def State.setV (s : State) (x : Nibble) (b : Byte) : State := { s with v := s.v.set x.toNat b x.isLt }

/-- `V[15] <- b`: the flag output (R21). -/
def State.setVF (s : State) (b : Byte) : State := s.setV 15 b

/-- The first `n` registers, `V[0]` to `V[n - 1]`. -/
def State.firstV (s : State) (n : Nat) : List Byte := s.v.toList.take n

/-- A register file with bytes put into consecutive registers from number `k` on, in ascending order (R166). -/
def fillV (v : Vector Byte 16) (k : Nat) : List Byte → Vector Byte 16
  | [] => v
  | b :: bs => fillV (v.setIfInBounds k b) (k + 1) bs

/-! ## The stack controller (40_control_flow R121, R123) -/

/-- Push a word: `STACK[SP] <- w; SP <- SP + 1`, if there is a free slot. -/
def State.push (s : State) (w : Word) : Option State :=
  if h : s.sp.toNat < 16 then some { s with stack := s.stack.set s.sp.toNat w h, sp := s.sp + 1 } else none

/-- Pop a word: `SP <- SP - 1`, and the word of the slot `SP` then points at, which keeps its contents (R25). None
when the stack is empty; none either when `SP` names no slot, which R27 says does not occur (log entry 9). -/
def State.pop (s : State) : Option (Word × State) :=
  if h : 0 < s.sp.toNat ∧ s.sp.toNat ≤ 16 then
    some (s.stack[s.sp.toNat - 1]'(by omega), { s with sp := s.sp - 1 })
  else none

/-! ## The display (10_state R30, 43_display R181) -/

/-- `DISP[px, py]`, for `px` in 0..63 and `py` in 0..31. -/
def pixelOf (d : Vector (BitVec 64) 32) (px py : Nat) : Bool := (d[py]?.getD 0).getLsbD px

/-- `DISP[px, py]` of a state. -/
def State.pixel (s : State) (px py : Nat) : Bool := pixelOf s.disp px py

/-- `DISP[px, py] <- DISP[px, py] ^ 1`, the coordinates reduced modulo 64 and 32, each pixel on its own (R182 (a)). -/
def togglePixel (d : Vector (BitVec 64) 32) (px py : Nat) : Vector (BitVec 64) 32 :=
  d.set (py % 32) (d[py % 32] ^^^ (1#64 <<< (px % 64))) (by omega)

/-- One sprite row: bit `7 - col` of the byte toggles the pixel of column `col`, bit 7 being the leftmost (R181). -/
def drawRow (d : Vector (BitVec 64) 32) (b : Byte) (left top : Nat) : Vector (BitVec 64) 32 :=
  (List.range 8).foldl (fun d col => if b.getLsbD (7 - col) then togglePixel d (col + left) top else d) d

/-- The sprite rows one below the other (R181). -/
def drawRows (d : Vector (BitVec 64) 32) (left top : Nat) : List Byte → Vector (BitVec 64) 32
  | [] => d
  | b :: bs => drawRows (drawRow d b left top) left (top + 1) bs

/-! ## Fetch (30_encoding R90, R91; 20_memory R63, R67) -/

/-- The word at `PC` and `PC + 1`, or the `MemoryFault` of the first of the two addresses above 0xFFF. -/
def fetch (s : State) : Except CoreFault Word :=
  match memRead s s.pc with
  | .error f => .error f
  | .ok hi =>
    match memRead s (s.pc + 1) with
    | .error f => .error f
    | .ok lo => .ok (wordOfBytes hi lo)

end Sys2Proof.Machine
end

