-- ==== Sys2Proof/Machine/Operands.lean ====
section
/-! DEFINITION. Operand forms (30_encoding R94): literals and registers widened with zeros, and the values that an
instruction forms from them. There is one memory operand form, the bytes from `I` on (`State.bytesFrom`). -/

namespace Sys2Proof.Machine

/-- `zext_16(nnn)` (R94). -/
def zextAddr (nnn : Addr12) : Word := nnn.setWidth 16

/-- `zext_16` of a byte (R10). -/
def zextByte (b : Byte) : Word := b.setWidth 16

/-- `zext_8` of a key number (R194). -/
def zextKey (k : Nibble) : Byte := k.setWidth 8

/-- The number of registers that Fx55 and Fx65 move: `x + 1` (R165, R166). -/
def blockLength (x : Nibble) : Nat := x.toNat + 1

/-- The target of Bnnn: `nnn + V[0]` at 16 bits, not masked to 12 (R128). -/
def indexedTarget (s : State) (nnn : Addr12) : Word := zextAddr nnn + zextByte (s.getV 0)

/-- The address of the glyph of a digit: `5 * V[x]` at 16 bits (R162). -/
def glyphAddr (b : Byte) : Word := 5 * zextByte b

/-- The three decimal digits of a byte: hundreds, tens, ones (R163). -/
def decimalDigits (b : Byte) : List Byte := [b / 100, b / 10 % 10, b % 10]

/-- A byte shifted left by one, modulo 256 (R150). -/
def shiftedLeft (b : Byte) : Byte := b <<< 1

/-- A byte shifted right by one, a 0 entering at bit 7 (R148). -/
def shiftedRight (b : Byte) : Byte := b >>> 1

/-- `KEY[V[x]]`, or none when the value is no key number (R191, R192). -/
def keyNamed (s : State) (b : Byte) : Option Bool :=
  if h : b.toNat < 16 then some (s.key[b.toNat]'h) else none

end Sys2Proof.Machine
end

