-- ==== Sys2Proof/Machine/Agents.lean ====
section
/-! DEFINITION. The agents beside the core (00_scope R5, 10_state R40 to R45): what each of their actions does to the
state, and the outputs they read. Every action falls wholly between two instruction cycles (R69, R72). -/

namespace Sys2Proof.Machine

/-- `tick_dt` (R42): a decrement that stops at 0 and never wraps. -/
def State.tickDt (s : State) : State := { s with dt := if 0 < s.dt.toNat then s.dt - 1 else s.dt }

/-- `tick_st` (R42). -/
def State.tickSt (s : State) : State := { s with st := if 0 < s.st.toNat then s.st - 1 else s.st }

/-- The input collaborator drives one flag of `KEY` (R43). -/
def State.setKey (s : State) (k : Nibble) (pressed : Bool) : State :=
  { s with key := s.key.set k.toNat pressed k.isLt }

/-- A key value offered (R43, R194): with a request outstanding it completes the waiting Fx0A; otherwise it is not
taken and not remembered. -/
def State.offerKey (s : State) (k : Nibble) : State :=
  match s.run with
  | .waitKey x => { (s.setV x (zextKey k)).advance 2 with run := .running }
  | .running => s
  | .halted _ => s

/-- `reset` (R240, R241): every element at its reset value, whatever the machine was doing. -/
def State.resetInput (s : State) : State := State.afterReset s.params s.draws s.schedule

/-- How many of a load's bytes fit into memory from the offset on (R245). -/
def room (offset : Nat) : Nat := memSize - offset

/-- `loadData(bytes, offset)` (R45, R244, R245): the bytes at the offset on, or, when they do not fit, what
`LOAD_POLICY` says: fail with `OutOfBounds` and write nothing, or write those that fit. -/
def loadData (offset : Nat) (bytes : List Byte) (s : State) : Result :=
  if offset + bytes.length ≤ memSize then .next (s.setBytesFrom offset bytes)
  else
    match s.params.loadPolicy with
    | .reject => .fault (.outOfBounds offset bytes.length)
    | .truncate => .next (s.setBytesFrom offset (bytes.take (room offset)))

/-- `loadProgram(bytes)` (R244): the load at 0x200. -/
def loadProgram (bytes : List Byte) (s : State) : Result := loadData 0x200 bytes s

/-- One action of an agent. A load after the first step request has no effect (R45; 93 U22; log entry 8), and
reading the display has none (R44). -/
def applyEvent (e : Event) (s : State) : Result :=
  match e with
  | .tickDt => .next s.tickDt
  | .tickSt => .next s.tickSt
  | .setKey k pressed => .next (s.setKey k pressed)
  | .keyEvent k => .next (s.offerKey k)
  | .readDisplay => .next s
  | .load offset bytes => if s.started then .next s else loadData offset bytes s
  | .reset => .next s.resetInput

/-- A batch of actions, one after the other. -/
def applyEvents : List Event → State → Result
  | [], s => .next s
  | e :: es, s => andThen (applyEvent e s) (applyEvents es)

/-- What the agents do before the next step request: the first batch of the schedule, which is thereby taken off it
(log entry 2). -/
def agentsAct (s : State) : Result :=
  match s.schedule with
  | [] => .next s
  | batch :: later => applyEvents batch { s with schedule := later }

/-! ## Outputs (R40) -/

/-- `tone = (ST > 0)` (R40, R196). -/
def State.tone (s : State) : Bool := decide (0 < s.st.toNat)

/-- `key_req`: high exactly while `RUN = WAIT_KEY(x)` (R40). -/
def State.keyReq (s : State) : Bool :=
  match s.run with
  | .waitKey _ => true
  | .running => false
  | .halted _ => false

/-- `halted` (R40). -/
def State.haltedOut (s : State) : Bool :=
  match s.run with
  | .halted _ => true
  | .running => false
  | .waitKey _ => false

/-- `display`: read access to all of `DISP` (R40, R44). -/
def State.displayPort (s : State) : Vector (BitVec 64) 32 := s.disp

end Sys2Proof.Machine
end

