-- ==== Sys2Proof/Machine/Flags.lean ====
section
/-! DEFINITION. Every flag computation: VF is the only flag (10_state R21), written before the result (41 R152). -/

namespace Sys2Proof.Machine

/-- A condition as a flag value, 1 or 0. -/
def flagOf (c : Bool) : Byte := if c then 1 else 0

/-- The flag of 8xy6: the bit shifted out, `V[y] & 1` (R148). -/
def shrFlag (b : Byte) : Byte := b &&& 0x01

/-- The flag of 8xyE: bit 3 of `V[y]` left in place, 0x08 or 0x00 (R150). -/
def shlFlag (b : Byte) : Byte := b &&& 0x08

/-- The flag of 8xy7: 1 if `V[y] > V[x]`, unsigned and strict (R149). -/
def subnFlag (vx vy : Byte) : Byte := flagOf (decide (vx.toNat < vy.toNat))

/-- The flag of 8xy4 under `CARRY_BORROW`: 1 if the sum exceeds 255 (R146). -/
def addFlag (vx vy : Byte) : Byte := flagOf (decide (255 < vx.toNat + vy.toNat))

/-- The flag of 8xy5 under `CARRY_BORROW`: 1 if `V[x] > V[y]`, unsigned and strict (R147). -/
def subFlag (vx vy : Byte) : Byte := flagOf (decide (vy.toNat < vx.toNat))

/-- The state in which 8xy4 or 8xy5 computes its result: after the flag under `CARRY_BORROW`, unchanged under `NONE`
(R146, R147). -/
def withAddSubFlag (s : State) (flag : Byte) : State :=
  match s.params.addSubFlag with
  | .none => s
  | .carryBorrow => s.setVF flag

end Sys2Proof.Machine
end

