-- ==== Sys2Proof/Machine/Alu.lean ====
section
/-! DEFINITION. Register loads and the ALU: 6xnn, 7xnn, family 8 (41_register_alu R140 to R153). Where an instruction
writes VF and a result, the flag is written first, and the result is computed from the registers as they stand then
(R152; log entry 10). -/

namespace Sys2Proof.Machine

/-- 6xnn (R140). -/
def execLdi (x : Nibble) (nn : Byte) (s : State) : Result := next (s.setV x nn)

/-- 7xnn: no flag (R141). -/
def execAddi (x : Nibble) (nn : Byte) (s : State) : Result := next (s.setV x (s.getV x + nn))

/-- 8xy0 (R142). -/
def execMov (x y : Nibble) (s : State) : Result := next (s.setV x (s.getV y))

/-- 8xy1: VF is not cleared (R143). -/
def execOr (x y : Nibble) (s : State) : Result := next (s.setV x (s.getV x ||| s.getV y))

/-- 8xy2: VF is not cleared (R144). -/
def execAnd (x y : Nibble) (s : State) : Result := next (s.setV x (s.getV x &&& s.getV y))

/-- 8xy3: VF is not cleared (R145). -/
def execXor (x y : Nibble) (s : State) : Result := next (s.setV x (s.getV x ^^^ s.getV y))

/-- 8xy4 under both settings of `ADDSUB_FLAG` (R146). -/
def execAdd (x y : Nibble) (s : State) : Result :=
  let t := withAddSubFlag s (addFlag (s.getV x) (s.getV y))
  next (t.setV x (t.getV x + t.getV y))

/-- 8xy5 under both settings of `ADDSUB_FLAG` (R147). -/
def execSub (x y : Nibble) (s : State) : Result :=
  let t := withAddSubFlag s (subFlag (s.getV x) (s.getV y))
  next (t.setV x (t.getV x - t.getV y))

/-- 8xy6: the result goes to `V[y]` and to `V[x]` (R148). -/
def execShr (x y : Nibble) (s : State) : Result :=
  let t := s.setVF (shrFlag (s.getV y))
  let r := shiftedRight (t.getV y)
  next ((t.setV y r).setV x r)

/-- 8xy7 (R149). -/
def execSubn (x y : Nibble) (s : State) : Result :=
  let t := s.setVF (subnFlag (s.getV x) (s.getV y))
  next (t.setV x (t.getV y - t.getV x))

/-- 8xyE: the result goes to `V[y]` and to `V[x]`, and the flag is bit 3 (R150). -/
def execShl (x y : Nibble) (s : State) : Result :=
  let t := s.setVF (shlFlag (s.getV y))
  let r := shiftedLeft (t.getV y)
  next ((t.setV y r).setV x r)

end Sys2Proof.Machine
end

