-- ==== Sys2Proof/Machine/Control.lean ====
section
/-! DEFINITION. Control transfer: 00EE, 1nnn, 2nnn, 3xnn, 4xnn, 5xy0, 9xy0, Bnnn (40_control_flow R120 to R128). -/

namespace Sys2Proof.Machine

/-- 00EE: return to the instruction after the call whose address the popped slot holds (R121). -/
def execRet (s : State) : Result :=
  match s.pop with
  | some (w, t) => .next (t.jumpTo (w + 2))
  | none => raise (.stackUnderflow s.ir) s

/-- 1nnn (R122). -/
def execJp (nnn : Addr12) (s : State) : Result := .next (s.jumpTo (zextAddr nnn))

/-- 2nnn: the address of the call itself is pushed (R123). -/
def execCall (nnn : Addr12) (s : State) : Result :=
  match s.push s.pc with
  | some t => .next (t.jumpTo (zextAddr nnn))
  | none => raise (.stackOverflow s.ir) s

/-- 3xnn (R124). -/
def execSei (x : Nibble) (nn : Byte) (s : State) : Result := skipIf (s.getV x == nn) s

/-- 4xnn (R125). -/
def execSnei (x : Nibble) (nn : Byte) (s : State) : Result := skipIf (s.getV x != nn) s

/-- 5xy0 (R126). -/
def execSe (x y : Nibble) (s : State) : Result := skipIf (s.getV x == s.getV y) s

/-- 9xy0 (R127). -/
def execSne (x y : Nibble) (s : State) : Result := skipIf (s.getV x != s.getV y) s

/-- Bnnn (R128). -/
def execJp0 (nnn : Addr12) (s : State) : Result := .next (s.jumpTo (indexedTarget s nnn))

end Sys2Proof.Machine
end

