-- ==== Sys2Proof/Machine/Display.lean ====
section
/-! DEFINITION. The display instructions 00E0 and Dxyn (43_display R180 to R183). Neither writes a `V` register. -/

namespace Sys2Proof.Machine

/-- 00E0: all 2048 pixels off (R180). -/
def execCls (s : State) : Result := next { s with disp := Vector.replicate 32 0 }

/-- Dxyn: the bytes from `I` on, drawn by XOR with the left column `V[x]` and the top row `V[y]` (R181). -/
def execDrw (x y n : Nibble) (s : State) : Result :=
  nextInSpan n.toNat s
    { s with disp := drawRows s.disp (s.getV x).toNat (s.getV y).toNat (s.bytesFrom s.i.toNat n.toNat) }

end Sys2Proof.Machine
end

