-- ==== Sys2Proof/Machine/Environment.lean ====
section
/-! DEFINITION. The instructions that meet the environment: Cxnn, Ex9E, ExA1, Fx07, Fx0A, Fx15, Fx18
(44_keypad_timer_random R190 to R196). -/

namespace Sys2Proof.Machine

/-- Cxnn: the next random byte under the mask (R190). The byte is a free value: `Config.rnd` has no body, and each
draw advances the counter it is applied to (log entry 3). -/
def execRnd (x : Nibble) (nn : Byte) (s : State) : Result :=
  next { s.setV x (Config.rnd s.draws &&& nn) with draws := s.draws + 1 }

/-- Ex9E (R191). -/
def execSkp (x : Nibble) (s : State) : Result :=
  match keyNamed s (s.getV x) with
  | some pressed => skipIf pressed s
  | none => raise (.keyIndexFault (s.getV x)) s

/-- ExA1 (R192). -/
def execSknp (x : Nibble) (s : State) : Result :=
  match keyNamed s (s.getV x) with
  | some pressed => skipIf (!pressed) s
  | none => raise (.keyIndexFault (s.getV x)) s

/-- Fx07 (R193). -/
def execGdt (x : Nibble) (s : State) : Result := next (s.setV x s.dt)

/-- Fx0A, first half: the key request goes out and `PC` stays (R194). The second half is `Event.keyEvent`. -/
def execKeyw (x : Nibble) (s : State) : Result := .next { s with run := .waitKey x }

/-- Fx15 (R195). -/
def execSdt (x : Nibble) (s : State) : Result := next { s with dt := s.getV x }

/-- Fx18 (R196). -/
def execSst (x : Nibble) (s : State) : Result := next { s with st := s.getV x }

end Sys2Proof.Machine
end

