-- ==== Sys2Proof/Machine/IndexMemory.lean ====
section
/-! DEFINITION. The index register and memory transfer: Annn, Fx1E, Fx29, Fx33, Fx55, Fx65 (42_index_memory R160 to
R166). `I` is changed by the first three only (R164). -/

namespace Sys2Proof.Machine

/-- Annn (R160). -/
def execLdix (nnn : Addr12) (s : State) : Result := next { s with i := zextAddr nnn }

/-- Fx1E: modulo 65536, no flag, no mask (R161). -/
def execAddix (x : Nibble) (s : State) : Result := next { s with i := s.i + zextByte (s.getV x) }

/-- Fx29: the whole byte is used (R162). -/
def execFont (x : Nibble) (s : State) : Result := next { s with i := glyphAddr (s.getV x) }

/-- Fx33 (R163). -/
def execBcd (x : Nibble) (s : State) : Result :=
  nextInSpan 3 s (s.setBytesFrom s.i.toNat (decimalDigits (s.getV x)))

/-- Fx55 (R165). -/
def execStm (x : Nibble) (s : State) : Result :=
  nextInSpan (blockLength x) s (s.setBytesFrom s.i.toNat (s.firstV (blockLength x)))

/-- Fx65 (R166). -/
def execLdm (x : Nibble) (s : State) : Result :=
  nextInSpan (blockLength x) s { s with v := fillV s.v 0 (s.bytesFrom s.i.toNat (blockLength x)) }

end Sys2Proof.Machine
end

