-- ==== Sys2Proof/Machine/Cycle.lean ====
section
/-! DEFINITION. The instruction cycle (30_encoding R90), the step request (10_state R41), and the placing of an
instruction where the next cycle fetches it. -/

namespace Sys2Proof.Machine

/-- Decode and execute, the word being latched in `IR` (R90): an illegal word raises `UnknownInstruction` with the
word and its family, before anything else changes (R98, R211). -/
def decodeAndExecute (w : Word) (s : State) : Result :=
  match decodeWord w with
  | .ok i => exec i { s with ir := w }
  | .error _ => raise (.unknownInstruction w (opField w)) { s with ir := w }

/-- One instruction cycle (R90): fetch, decode, execute. A fetch that leaves memory raises `MemoryFault` and leaves
`IR` alone (R67, R217). -/
def cycle (s : State) : Result :=
  match fetch s with
  | .ok w => decodeAndExecute w s
  | .error f => raise f s

/-- One `step_req` (R41): one cycle when running, and nothing in `WAIT_KEY` and `HALTED`. The first one ends the
loader's turn (R45, R243). -/
def stepRequest (s : State) : Result :=
  match s.run with
  | .running => cycle { s with started := true }
  | .waitKey _ => .next s
  | .halted _ => .next s

/-- What the agents do since the last step request, and then the step request (R72; log entry 2). -/
def agentsThenStep (s : State) : Result := andThen (agentsAct s) stepRequest

/-- The state with the word's bytes at `PC` and `PC + 1`, high byte first, the core running, and no action of another
agent before the next step request (log entries 16, 17). Where memory has no such two addresses nothing is stored. -/
def placeAtPc (s : State) (bytes : List Byte) : State :=
  { (if s.pc.toNat + bytes.length ≤ memSize then s.setBytesFrom s.pc.toNat bytes else s) with
    run := .running
    fault := none
    schedule := if s.schedule = [] then [] else [] :: s.schedule }

end Sys2Proof.Machine
end

