-- ==== Sys2Proof/Machine/Step.lean ====
section
/-! DEFINITION. One step of the machine, and the placing of an instruction for the host's questions. -/

namespace Sys2Proof.Machine

/-- One step: the agents' actions due before this step request, and the step request (R5, R41, R72). -/
def step (s : State) : Host.Outcome State Fault Refusal := Sys2Proof.Machine.agentsThenStep s

/-- The state with an instruction of the opcode table placed where `step` fetches next (log entries 16, 17). -/
def State.withFetchWord (s : State) (nbits w : Nat) : State :=
  Sys2Proof.Machine.placeAtPc s (Sys2Proof.tableBytes nbits w)

end Sys2Proof.Machine
end

