-- ==== Sys2Proof/Safety.lean ====
section
/-! DEFINITION. What claims call a good state: the invariant of the reachable states, a halted core, a finished
program (10_state R23, R27, R34, R35; 60_exceptions R219; 70_reset_and_hazards R247). -/

namespace Sys2Proof.Machine

/-- `HALTED(cause)`: "a fault state, never the successful end of a run" (R219). -/
def State.isHalted (s : State) : Prop := ∃ c, s.run = .halted c

/-- The run state and the fault record agree: there is a record exactly when the core is halted, and it names the
cause (R34, R35, R217). -/
def State.recordMatchesRun (s : State) : Prop :=
  match s.run with
  | .halted c => ∃ r, s.fault = some r ∧ r.datum.cause = c ∧ r.pc = s.pc ∧ r.ir = s.ir
  | .running => s.fault = none
  | .waitKey _ => s.fault = none

/-- What holds of every state a run can reach: memory in canonical form; `SP` in 0..16 (R27); every stack slot zero or
the address of a fetched call, so at most 0x0FFE; `PC` at most 0x10FE, and at a fetched instruction while its key
request waits (R23); the record in step with the run state; a core that waits or has halted has taken a step request. -/
structure State.Inv (s : State) : Prop where
  memWf       : Memory.wf s.params.font s.mem
  spBound     : s.sp.toNat ≤ 16
  slotBound   : ∀ k : Fin 16, s.stack[k].toNat ≤ 0x0FFE
  pcBound     : s.pc.toNat ≤ 0x10FE
  waitPcBound : ∀ x, s.run = .waitKey x → s.pc.toNat ≤ 0x0FFE
  record      : s.recordMatchesRun
  idleStarted : s.run ≠ .running → s.started = true

/-- A finished program (R247): the core runs and the word at `PC` is the jump to `PC` itself. -/
def State.finished (s : State) : Prop :=
  s.run = .running ∧ fetch s = .ok (0x1000 ||| s.pc) ∧ s.pc.toNat ≤ 0x0FFE

/-- Every load the agents bring before the next step request fits into memory, so that no `OutOfBounds` stops the
machine at load time (R244, R245). -/
def State.loadsFit (s : State) : Prop :=
  ∀ batch later, s.schedule = batch :: later →
    ∀ offset bytes, Event.load offset bytes ∈ batch → offset + bytes.length ≤ memSize

/-- The actions the agents bring before the next step request. -/
def State.due (s : State) : List Event := s.schedule.headD []

/-! ## What an instruction may write (10_state R21, R23 to R31; 92 D17): the terms of the frame claims -/

/-- The registers an instruction may write: its destinations, and VF where its rule names a flag (R21, R146 to R150).
Fx0A is not here: its register is written when the key arrives (R194). -/
def mayWriteV (p : Params) (i : Instr) (z : Nibble) : Prop :=
  match i with
  | .ldi x _ | .addi x _ | .mov x _ | .or x _ | .and x _ | .xor x _ | .rnd x _ | .gdt x => z = x
  | .add x _ | .sub x _ => z = x ∨ z = 15 ∧ p.addSubFlag = .carryBorrow
  | .subn x _ => z = x ∨ z = 15
  | .shr x y | .shl x y => z = x ∨ z = y ∨ z = 15
  | .ldm x => z.toNat ≤ x.toNat
  | .cls | .ret | .jp _ | .call _ | .sei _ _ | .snei _ _ | .se _ _ | .sne _ _ | .ldix _ | .jp0 _ | .drw _ _ _
  | .skp _ | .sknp _ | .keyw _ | .sdt _ | .sst _ | .addix _ | .font _ | .bcd _ | .stm _ => False

/-- The number of bytes an instruction stores, from `MEM[I]` on (R65): three for Fx33, `x + 1` for Fx55, else none. -/
def storedBytes : Instr → Nat
  | .bcd _ => 3
  | .stm x => x.toNat + 1
  | .cls | .ret | .jp _ | .call _ | .sei _ _ | .snei _ _ | .se _ _ | .ldi _ _ | .addi _ _ | .mov _ _ | .or _ _
  | .and _ _ | .xor _ _ | .add _ _ | .sub _ _ | .shr _ _ | .subn _ _ | .shl _ _ | .sne _ _ | .ldix _ | .jp0 _
  | .rnd _ _ | .drw _ _ _ | .skp _ | .sknp _ | .gdt _ | .keyw _ | .sdt _ | .sst _ | .addix _ | .font _ | .ldm _ => 0

/-- The instructions that write `PC` themselves and get no default advance, the list of R120. -/
def setsPcItself : Instr → Prop
  | .jp _ | .call _ | .jp0 _ | .ret | .keyw _ => True
  | .sei _ _ | .snei _ _ | .se _ _ | .sne _ _ | .skp _ | .sknp _ => True
  | .cls | .ldi _ _ | .addi _ _ | .mov _ _ | .or _ _ | .and _ _ | .xor _ _ | .add _ _ | .sub _ _ | .shr _ _
  | .subn _ _ | .shl _ _ | .ldix _ | .rnd _ _ | .drw _ _ _ | .gdt _ | .sdt _ | .sst _ | .addix _ | .font _ | .bcd _
  | .stm _ | .ldm _ => False

end Sys2Proof.Machine
end

