-- ==== Sys2Proof/Certificates/Slice0/Obligations.lean ====
section
/-! DEFINITION. The statements for the provers, from the spec's numbered rules; each docstring names the rule. -/

open Sys2Proof Sys2Proof.Machine

/-! ## Encoding and decoding -/

/-- R92, R93, R97, R102: the decoder reads every well-formed instruction back from its word, every operand at every
value its field admits. -/
def Obligations.DecodeReadsBackEncode : Prop :=
  ∀ i : Instr, i.wellFormed = true → decodeWord (encode i) = .ok i

/-- R92, R95: no bit of a legal word is dropped: the instruction decoded from a word encodes to that word. -/
def Obligations.EncodeReadsBackDecode : Prop :=
  ∀ (w : Word) (i : Instr), decodeWord w = .ok i → encode i = w

/-- R95: decode is a function of the word alone, the legal words are exactly those of the rule's two-level table, and
every other word is refused by name with its family. -/
def Obligations.DecodeAcceptsExactlyLegalWords : Prop :=
  ∀ w : Word,
    (legalWord w = true → ∃ i, decodeWord w = .ok i) ∧
    (legalWord w = false → decodeWord w = .error (.unknownInstruction w (w.extractLsb' 12 4)))

/-- R96: no word matches two rows of the opcode map. -/
def Obligations.NoWordMatchesTwoRows : Prop :=
  ∀ (w : Word) (r r' : Word × Word),
    r ∈ opcodeRows → r' ∈ opcodeRows → rowMatches w r = true → rowMatches w r' = true → r = r'

/-- R97: a word is the instruction of a row exactly when `w & mask = match`, and the map has 34 rows. -/
def Obligations.WordIsInstructionOfMatchedRow : Prop :=
  opcodeRows.length = 34 ∧
  ∀ (w : Word) (r : Word × Word), r ∈ opcodeRows →
    (w &&& r.2 = r.1 ↔ ∃ i, decodeWord w = .ok i ∧ i.row = r)

/-- Words written out bit by bit from R93 and R97, one for each format and family. -/
def Obligations.SpelledOutWordsDecode : Prop :=
  decodeWord 0b0000000011100000 = .ok .cls ∧
  decodeWord 0b0010001000001010 = .ok (.call 0x20A) ∧
  decodeWord 0b0011010100101010 = .ok (.sei 0x5 0x2A) ∧
  decodeWord 0b1000001100011110 = .ok (.shl 0x3 0x1) ∧
  decodeWord 0b1010001011110000 = .ok (.ldix 0x2F0) ∧
  decodeWord 0b1101000000010010 = .ok (.drw 0x0 0x1 0x2) ∧
  decodeWord 0b1110001010011110 = .ok (.skp 0x2) ∧
  decodeWord 0b1111001001010101 = .ok (.stm 0x2)

/-! ## The cycle and the step -/

/-- R91: the two bytes at `PC` and `PC + 1`, the first one bits 15 to 8; both reads fault out of range (R67), with
the lowest address above 0xFFF. -/
def Obligations.FetchReadsHighByteFirst : Prop :=
  ∀ s : State,
    (s.pc.toNat ≤ 0xFFE →
      ∃ w, fetch s = .ok w ∧
        w.toNat = (s.byteAt s.pc.toNat).toNat * 256 + (s.byteAt (s.pc.toNat + 1)).toNat) ∧
    (s.pc.toNat = 0xFFF → fetch s = .error (.memoryFault 0x1000)) ∧
    (0xFFF < s.pc.toNat → fetch s = .error (.memoryFault s.pc))

/-- R90: a step at which the core runs, and whose bytes at `PC` decode to a well-formed instruction, is that
instruction's meaning, on the state the agents left, with the word latched in `IR` (and the loader's turn over). -/
def Obligations.StepRunsDecodedInstruction : Prop :=
  ∀ (s t : State) (w : Word) (i : Instr),
    agentsAct s = .next t → t.run = .running → t.pc.toNat ≤ 0xFFE →
    w = wordOfBytes (t.byteAt t.pc.toNat) (t.byteAt (t.pc.toNat + 1)) →
    decodeWord w = .ok i → i.wellFormed = true →
    step s = exec i { t with ir := w, started := true }

/-- R41: a step request taken in `RUNNING` executes exactly one cycle; in `WAIT_KEY` and `HALTED` it changes nothing.
With no action of another agent pending, the machine's step is the step request. (`started` is the model's own mark
that a step request has been taken, the schedule its own record of the agents: log entries 8 and 2.) -/
def Obligations.StepRequestRunsOneCycleOrNothing : Prop :=
  ∀ s : State,
    (s.run = .running → stepRequest s = cycle { s with started := true }) ∧
    (∀ x, s.run = .waitKey x → stepRequest s = .next s) ∧
    (∀ c, s.run = .halted c → stepRequest s = .next s) ∧
    (s.schedule = [] → step s = stepRequest s)

/-- R211: an illegal word raises `UnknownInstruction` with the word and its top nibble, in the decode phase: `IR` is
latched and nothing else changes, `PC` included. -/
def Obligations.IllegalWordHaltsCore : Prop :=
  ∀ (s : State) (w : Word), fetch s = .ok w → legalWord w = false →
    cycle s = .next
      { s with
        ir := w
        run := .halted .unknownInstruction
        fault := some { datum := .unknownInstruction w (w.extractLsb' 12 4), pc := s.pc, ir := w } }

/-- R67, R217: a fetch with `PC` above 0x0FFE halts the core before any opcode is formed: `IR` and `PC` keep their
values, and the record holds the lowest address above 0xFFF. -/
def Obligations.FetchBeyondMemoryHaltsCore : Prop :=
  ∀ s : State, 0x0FFE < s.pc.toNat →
    cycle s = .next
      { s with
        run := .halted .memoryFault
        fault := some { datum := .memoryFault (if s.pc.toNat ≤ 0xFFF then 0x1000 else s.pc), pc := s.pc, ir := s.ir } }

/-- R217, R245: a step always answers a next state, an oversized load apart: every fault of the core is an entry. -/
def Obligations.StepAnswersNextUnlessLoadOversized : Prop :=
  ∀ s : State, s.loadsFit → ∃ t, step s = .next t

/-! ## Invariants -/

/-- The invariant holds right after reset, under every setting of the open parameters; and `State.reset`, which has the
spec's defaults and the model's own choices (log entries 2 to 6), is the state that the reset input leaves there. -/
def Obligations.ResetMeetsInvariant : Prop :=
  State.reset.Inv ∧ (∀ s : State, s.resetInput.Inv) ∧ applyEvent .reset State.reset = .next State.reset

/-- R23, R27, R29, R34, R35: every step keeps memory canonical, `SP` within 0 to 16, the stack slots and `PC` within
the bounds that R23 derives, and the fault record in agreement with the run state. -/
def Obligations.StepKeepsInvariant : Prop :=
  ∀ s t : State, s.Inv → step s = .next t → t.Inv

/-- R7: no step changes the open parameters (the model's own field, log entries 4 to 6). -/
def Obligations.StepKeepsParameters : Prop :=
  ∀ s t : State, step s = .next t → t.params = s.params

/-- R219: nothing but reset leaves `HALTED`: the core ignores step requests and key events, and only the timers and
the key flags can still change (and the model's own schedule moves on). -/
def Obligations.HaltedCoreStaysHalted : Prop :=
  ∀ (s t : State) (c : Cause), s.Inv → s.run = .halted c → Event.reset ∉ s.due → step s = .next t →
    t = { s with dt := t.dt, st := t.st, key := t.key, schedule := s.schedule.tail }

/-- R194 (e): while the key request is outstanding, with no key value delivered and no reset, only `DT`, `ST` and
`KEY` can change (and the model's own schedule moves on). -/
def Obligations.WaitingCoreKeepsState : Prop :=
  ∀ (s t : State) (x : Nibble), s.Inv → s.run = .waitKey x → Event.reset ∉ s.due →
    (∀ k, Event.keyEvent k ∉ s.due) → step s = .next t →
    t = { s with dt := t.dt, st := t.st, key := t.key, schedule := s.schedule.tail }

/-- R247: at a self-jump every further step request leaves the core-written state as it is (`IR` holds the jump's
word, and the model's own `started` is set), and the program is still finished. -/
def Obligations.FinishedProgramStaysFinished : Prop :=
  ∀ s : State, s.finished →
    stepRequest s = .next { s with ir := 0x1000 ||| s.pc, started := true } ∧
    State.finished { s with ir := 0x1000 ||| s.pc, started := true }

/-! ## Reset, boot and the agents -/

/-- R47, R240: the value of every element after reset, whatever the machine was doing (R241). -/
def Obligations.ResetSetsEveryElement : Prop :=
  ∀ s : State, ∃ t, applyEvent .reset s = .next t ∧
    (∀ z, t.getV z = 0x00) ∧ t.i = 0x0000 ∧ t.pc = 0x0200 ∧ t.sp = 0x00 ∧ (∀ k : Fin 16, t.stack[k] = 0x0000) ∧
    (∀ j : Fin 80, t.byteAt j = s.params.font[j]) ∧ (∀ a, 0x50 ≤ a → a ≤ 0xFFF → t.byteAt a = 0x00) ∧
    (∀ px < 64, ∀ py < 32, t.pixel px py = false) ∧ t.dt = 0x00 ∧ t.st = 0x00 ∧ (∀ k : Fin 16, t.key[k] = false) ∧
    t.ir = 0x0000 ∧ t.run = .running ∧ t.fault = none

/-- R42: a tick decrements its timer by one while it is above 0 and leaves it at 0 otherwise; nothing else changes. -/
def Obligations.TicksDecrementToZero : Prop :=
  ∀ s : State,
    (∃ t, applyEvent .tickDt s = .next t ∧ t = { s with dt := t.dt } ∧ t.dt.toNat = s.dt.toNat - 1) ∧
    (∃ t, applyEvent .tickSt s = .next t ∧ t = { s with st := t.st } ∧ t.st.toNat = s.st.toNat - 1)

/-- R43: the input collaborator's press or release drives one key flag, and nothing else. -/
def Obligations.KeyWriteDrivesOneFlag : Prop :=
  ∀ (s : State) (k : Nibble) (p : Bool), ∃ t,
    applyEvent (.setKey k p) s = .next t ∧ t = { s with key := t.key } ∧
    ∀ (j : Nat) (hj : j < 16), t.key[j] = if j = k.toNat then p else s.key[j]

/-- R245, R244, R45: before the first step request a load that fits writes its bytes at the offset on and nothing
else; one that does not fit fails with `OutOfBounds` under `REJECT`, and under `TRUNCATE` writes the first
`4096 - offset` bytes. After it a load of any size has no effect, in every run state (the model's mark `started`, log
entry 8). A program is the load at 0x200. -/
def Obligations.LoadWritesOrRejects : Prop :=
  ∀ (s : State) (offset : Nat) (bytes : List Byte),
    loadProgram bytes s = loadData 0x200 bytes s ∧
    (s.started = true → applyEvent (.load offset bytes) s = .next s) ∧
    (s.started = false → offset + bytes.length ≤ 4096 →
      ∃ t, applyEvent (.load offset bytes) s = .next t ∧ t = { s with mem := t.mem } ∧
        ∀ a, t.byteAt a = if offset ≤ a ∧ a < offset + bytes.length then bytes[a - offset]?.getD 0 else s.byteAt a) ∧
    (s.started = false → 4096 < offset + bytes.length → s.params.loadPolicy = .reject →
      applyEvent (.load offset bytes) s = .fault (.outOfBounds offset bytes.length)) ∧
    (s.started = false → 4096 < offset + bytes.length → s.params.loadPolicy = .truncate →
      ∃ t, applyEvent (.load offset bytes) s = .next t ∧ t = { s with mem := t.mem } ∧
        ∀ a, t.byteAt a = if offset ≤ a ∧ a < 4096 then bytes[a - offset]?.getD 0 else s.byteAt a)

/-- R243: after reset and the load of a program at 0x200, the first step runs the word at 0x200 and 0x201, for every
setting of the parameters. -/
def Obligations.BootRunsFirstProgramWord : Prop :=
  ∀ (p : Params) (d : Nat) (later : List (List Event)) (hi lo : Byte) (rest : List Byte) (i : Instr),
    rest.length ≤ 3582 → decodeWord (wordOfBytes hi lo) = .ok i →
    ∃ t, loadProgram (hi :: lo :: rest) (State.afterReset p d later) = .next t ∧
      step (State.afterReset p d ([.load 0x200 (hi :: lo :: rest)] :: later)) =
        exec i { t with ir := wordOfBytes hi lo, started := true }

/-! ## Control transfer -/

/-- R122: 1nnn sets `PC` to `nnn` and changes nothing else. -/
def Obligations.JumpSetsPc : Prop :=
  ∀ (nnn : Addr12) (s : State), exec (.jp nnn) s = .next { s with pc := nnn.setWidth 16 }

/-- R123: 2nnn pushes its own address and jumps while a slot is free, and raises `StackOverflow` when `SP = 16`. -/
def Obligations.CallPushesOwnAddress : Prop :=
  ∀ (nnn : Addr12) (s : State),
    (∀ h : s.sp.toNat < 16, exec (.call nnn) s =
      .next { s with stack := s.stack.set s.sp.toNat s.pc h, sp := s.sp + 1, pc := nnn.setWidth 16 }) ∧
    (s.sp.toNat = 16 → exec (.call nnn) s = .next (s.raised (.stackOverflow s.ir)))

/-- R121: 00EE resumes two bytes after the address in the former top slot, which keeps its contents, and raises
`StackUnderflow` when `SP = 0`. -/
def Obligations.ReturnResumesAfterCall : Prop :=
  ∀ s : State,
    (∀ (h : 0 < s.sp.toNat) (h' : s.sp.toNat ≤ 16), exec .ret s =
      .next { s with sp := s.sp - 1, pc := s.stack[s.sp.toNat - 1]'(by omega) + 2 }) ∧
    (s.sp.toNat = 0 → exec .ret s = .next (s.raised (.stackUnderflow s.ir)))

/-- R121, R123 and the pairing property of §8 (95 E2): a call and then a return leave `PC` two past the call and `SP`
at its value before it; only the slot differs. -/
def Obligations.CallThenReturnNetsPlusTwo : Prop :=
  ∀ (nnn : Addr12) (s : State), s.sp.toNat < 16 →
    ∃ t u, exec (.call nnn) s = .next t ∧ t.pc = nnn.setWidth 16 ∧ exec .ret t = .next u ∧
      u = { s with pc := s.pc + 2, stack := u.stack } ∧
      ∀ (k : Nat) (hk : k < 16), u.stack[k] = if k = s.sp.toNat then s.pc else s.stack[k]

/-- R124, R125: 3xnn adds 4 to `PC` if the register equals the byte, else 2; 4xnn the other way round. -/
def Obligations.SkipOnByteCompare : Prop :=
  ∀ (x : Nibble) (nn : Byte) (s : State),
    exec (.sei x nn) s = .next { s with pc := if s.getV x = nn then s.pc + 4 else s.pc + 2 } ∧
    exec (.snei x nn) s = .next { s with pc := if s.getV x = nn then s.pc + 2 else s.pc + 4 }

/-- R126, R127: 5xy0 adds 4 to `PC` if the registers are equal, else 2; 9xy0 the other way round. -/
def Obligations.SkipOnRegisterCompare : Prop :=
  ∀ (x y : Nibble) (s : State),
    exec (.se x y) s = .next { s with pc := if s.getV x = s.getV y then s.pc + 4 else s.pc + 2 } ∧
    exec (.sne x y) s = .next { s with pc := if s.getV x = s.getV y then s.pc + 2 else s.pc + 4 }

/-- R128: Bnnn sets `PC` to `nnn + V[0]`, a sum that never wraps and is not masked to 12 bits. -/
def Obligations.IndexedJumpAddsV0 : Prop :=
  ∀ (nnn : Addr12) (s : State), ∃ t,
    exec (.jp0 nnn) s = .next t ∧ t = { s with pc := t.pc } ∧ t.pc.toNat = nnn.toNat + (s.getV 0).toNat

/-! ## Register loads and the ALU -/

/-- R140, R142: 6xnn loads the byte and 8xy0 copies the register; nothing else but `PC` changes. -/
def Obligations.LoadByteAndCopy : Prop :=
  ∀ (x y : Nibble) (nn : Byte) (s : State),
    exec (.ldi x nn) s = .next { s.setV x nn with pc := s.pc + 2 } ∧
    exec (.mov x y) s = .next { s.setV x (s.getV y) with pc := s.pc + 2 }

/-- R141: 7xnn adds modulo 256 and writes no flag. -/
def Obligations.AddByteWrapsWithoutFlag : Prop :=
  ∀ (x : Nibble) (nn : Byte) (s : State),
    exec (.addi x nn) s =
      .next { s.setV x (BitVec.ofNat 8 (((s.getV x).toNat + nn.toNat) % 256)) with pc := s.pc + 2 }

/-- R143, R144, R145: the three logical instructions write `V[x]` and neither write nor clear VF. -/
def Obligations.LogicalOpsWriteNoFlag : Prop :=
  ∀ (x y : Nibble) (s : State),
    exec (.or x y) s = .next { s.setV x (s.getV x ||| s.getV y) with pc := s.pc + 2 } ∧
    exec (.and x y) s = .next { s.setV x (s.getV x &&& s.getV y) with pc := s.pc + 2 } ∧
    exec (.xor x y) s = .next { s.setV x (s.getV x ^^^ s.getV y) with pc := s.pc + 2 }

/-- R146: 8xy4 under both settings: under `NONE` the sum modulo 256 and no flag; under `CARRY_BORROW` the carry to VF
first, and the sum of the registers as they then stand. -/
def Obligations.AddRegistersUnderBothSettings : Prop :=
  ∀ (x y : Nibble) (s : State),
    (s.params.addSubFlag = .none →
      exec (.add x y) s = .next { s.setV x (s.getV x + s.getV y) with pc := s.pc + 2 }) ∧
    (s.params.addSubFlag = .carryBorrow →
      ∀ f : Byte, f = (if 255 < (s.getV x).toNat + (s.getV y).toNat then 1 else 0) →
      exec (.add x y) s = .next
        { (s.setV 15 f).setV x ((if x = 15 then f else s.getV x) + (if y = 15 then f else s.getV y)) with
          pc := s.pc + 2 })

/-- R147: 8xy5 under both settings: under `NONE` the difference modulo 256 and no flag; under `CARRY_BORROW` the
strict greater-than to VF first, and the difference of the registers as they then stand. -/
def Obligations.SubtractRegistersUnderBothSettings : Prop :=
  ∀ (x y : Nibble) (s : State),
    (s.params.addSubFlag = .none →
      exec (.sub x y) s = .next { s.setV x (s.getV x - s.getV y) with pc := s.pc + 2 }) ∧
    (s.params.addSubFlag = .carryBorrow →
      ∀ f : Byte, f = (if (s.getV y).toNat < (s.getV x).toNat then 1 else 0) →
      exec (.sub x y) s = .next
        { (s.setV 15 f).setV x ((if x = 15 then f else s.getV x) - (if y = 15 then f else s.getV y)) with
          pc := s.pc + 2 })

/-- R148: 8xy6 writes bit 0 of `V[y]` to VF, then shifts `V[y]` as it then stands right by one into `V[y]` and
`V[x]`. -/
def Obligations.ShiftRightWritesBothRegisters : Prop :=
  ∀ (x y : Nibble) (s : State) (f r : Byte),
    f = BitVec.ofNat 8 ((s.getV y).toNat % 2) →
    r = BitVec.ofNat 8 ((if y = 15 then f else s.getV y).toNat / 2) →
    exec (.shr x y) s = .next { ((s.setV 15 f).setV y r).setV x r with pc := s.pc + 2 }

/-- R149: 8xy7 writes the strict greater-than to VF, then `V[y] - V[x]`, both as they then stand, to `V[x]`. -/
def Obligations.ReverseSubtractFlagsStrictGreater : Prop :=
  ∀ (x y : Nibble) (s : State) (f : Byte),
    f = (if (s.getV x).toNat < (s.getV y).toNat then 1 else 0) →
    exec (.subn x y) s = .next
      { (s.setV 15 f).setV x ((if y = 15 then f else s.getV y) - (if x = 15 then f else s.getV x)) with
        pc := s.pc + 2 }

/-- R150: 8xyE writes bit 3 of `V[y]`, left in place, to VF, then shifts `V[y]` as it then stands left by one, modulo
256, into `V[y]` and `V[x]`. -/
def Obligations.ShiftLeftFlagsBitThree : Prop :=
  ∀ (x y : Nibble) (s : State) (f r : Byte),
    f = (if (s.getV y).getLsbD 3 then 0x08 else 0x00) →
    r = BitVec.ofNat 8 ((if y = 15 then f else s.getV y).toNat * 2 % 256) →
    exec (.shl x y) s = .next { ((s.setV 15 f).setV y r).setV x r with pc := s.pc + 2 }

/-- R153: the table of the flag-writing instructions by whether `x` and `y` name VF, row by row. -/
def Obligations.VfAliasingTable : Prop :=
  ∀ (x y : Nibble) (s : State) (a b F : Byte), a = s.getV x → b = s.getV y → F = s.getV 15 →
    (∃ t, exec (.shr x y) s = .next t ∧
      (x ≠ 15 → y ≠ 15 → t.getV 15 = b &&& 1 ∧ t.getV x = b >>> 1 ∧ t.getV y = b >>> 1) ∧
      (x = 15 → y ≠ 15 → t.getV y = b >>> 1 ∧ t.getV 15 = b >>> 1) ∧
      (x ≠ 15 → y = 15 → t.getV 15 = 0 ∧ t.getV x = 0) ∧
      (x = 15 → y = 15 → t.getV 15 = 0)) ∧
    (∃ t, exec (.subn x y) s = .next t ∧
      (x ≠ 15 → y ≠ 15 → t.getV 15 = (if a.toNat < b.toNat then 1 else 0) ∧ t.getV x = b - a) ∧
      (x = 15 → y ≠ 15 → t.getV 15 = b - (if F.toNat < b.toNat then 1 else 0)) ∧
      (x ≠ 15 → y = 15 → t.getV 15 = (if a.toNat < F.toNat then 1 else 0) ∧
        t.getV x = (if a.toNat < F.toNat then 1 else 0) - a) ∧
      (x = 15 → y = 15 → t.getV 15 = 0)) ∧
    (∃ t, exec (.shl x y) s = .next t ∧
      (x ≠ 15 → y ≠ 15 → t.getV 15 = b &&& 8 ∧ t.getV x = 2 * b ∧ t.getV y = 2 * b) ∧
      (x = 15 → y ≠ 15 → t.getV y = 2 * b ∧ t.getV 15 = 2 * b) ∧
      (x ≠ 15 → y = 15 → t.getV 15 = 2 * (F &&& 8) ∧ t.getV x = 2 * (F &&& 8)) ∧
      (x = 15 → y = 15 → t.getV 15 = 2 * (F &&& 8)))

/-! ## The index register and memory transfer -/

/-- R160, R161, R162: Annn loads `I`, Fx1E adds `V[x]` to it modulo 65536, Fx29 sets it to `5 * V[x]` without a mask;
no flag, and nothing else but `PC` changes. -/
def Obligations.IndexRegisterWrites : Prop :=
  ∀ (x : Nibble) (nnn : Addr12) (s : State),
    exec (.ldix nnn) s = .next { s with i := BitVec.ofNat 16 nnn.toNat, pc := s.pc + 2 } ∧
    exec (.addix x) s =
      .next { s with i := BitVec.ofNat 16 ((s.i.toNat + (s.getV x).toNat) % 65536), pc := s.pc + 2 } ∧
    exec (.font x) s = .next { s with i := BitVec.ofNat 16 (5 * (s.getV x).toNat), pc := s.pc + 2 }

/-- R163: Fx33 stores the hundreds, tens and ones of `V[x]` at `I`, `I + 1`, `I + 2` and nothing else; beyond memory it
raises `MemoryFault(max(I, 0x1000))` and stores nothing. -/
def Obligations.BcdStoresThreeDigits : Prop :=
  ∀ (x : Nibble) (s : State),
    (s.i.toNat + 2 ≤ 0xFFF → ∃ t, exec (.bcd x) s = .next t ∧ t = { s with mem := t.mem, pc := s.pc + 2 } ∧
      (t.byteAt s.i.toNat).toNat = (s.getV x).toNat / 100 ∧
      (t.byteAt (s.i.toNat + 1)).toNat = (s.getV x).toNat / 10 % 10 ∧
      (t.byteAt (s.i.toNat + 2)).toNat = (s.getV x).toNat % 10 ∧
      ∀ a, a < s.i.toNat ∨ s.i.toNat + 2 < a → t.byteAt a = s.byteAt a) ∧
    (0xFFF < s.i.toNat + 2 →
      exec (.bcd x) s = .next (s.raised (.memoryFault (if s.i.toNat < 0x1000 then 0x1000 else s.i))))

/-- R165: Fx55 stores `V[0]` to `V[x]` at `I` to `I + x` and nothing else, registers and `I` unchanged; beyond memory
it raises `MemoryFault(max(I, 0x1000))` and stores nothing. -/
def Obligations.StoreRegistersToMemory : Prop :=
  ∀ (x : Nibble) (s : State),
    (s.i.toNat + x.toNat ≤ 0xFFF → ∃ t, exec (.stm x) s = .next t ∧ t = { s with mem := t.mem, pc := s.pc + 2 } ∧
      (∀ k : Nibble, k.toNat ≤ x.toNat → t.byteAt (s.i.toNat + k.toNat) = s.getV k) ∧
      ∀ a, a < s.i.toNat ∨ s.i.toNat + x.toNat < a → t.byteAt a = s.byteAt a) ∧
    (0xFFF < s.i.toNat + x.toNat →
      exec (.stm x) s = .next (s.raised (.memoryFault (if s.i.toNat < 0x1000 then 0x1000 else s.i))))

/-- R166: Fx65 loads `V[0]` to `V[x]` from `I` to `I + x`, the other registers, memory and `I` unchanged; beyond
memory it raises `MemoryFault(max(I, 0x1000))` and loads nothing. -/
def Obligations.LoadRegistersFromMemory : Prop :=
  ∀ (x : Nibble) (s : State),
    (s.i.toNat + x.toNat ≤ 0xFFF → ∃ t, exec (.ldm x) s = .next t ∧ t = { s with v := t.v, pc := s.pc + 2 } ∧
      ∀ k : Nibble, t.getV k = if k.toNat ≤ x.toNat then s.byteAt (s.i.toNat + k.toNat) else s.getV k) ∧
    (0xFFF < s.i.toNat + x.toNat →
      exec (.ldm x) s = .next (s.raised (.memoryFault (if s.i.toNat < 0x1000 then 0x1000 else s.i))))

/-- R166 and 95 E9: storing `V[0]` to `V[x]` and loading them back from the same address, in any state with the
stored memory and the same `I`, whatever its registers, gives the original values. -/
def Obligations.StoreThenLoadRestoresRegisters : Prop :=
  ∀ (x : Nibble) (s t u : State), s.i.toNat + x.toNat ≤ 0xFFF → exec (.stm x) s = .next t →
    u.mem = t.mem → u.params = t.params → u.i = t.i →
    ∃ r, exec (.ldm x) u = .next r ∧ ∀ k : Nibble, k.toNat ≤ x.toNat → r.getV k = s.getV k

/-- R68: Fx33, Fx55, Fx65 and Dxyn check their whole range first: beyond memory each raises `MemoryFault` with the
lowest offending address and makes none of its reads or writes; Dxyn with `n = 0` cannot fault. -/
def Obligations.BlockRangeCheckedBeforeEffect : Prop :=
  ∀ (i : Instr) (n : Nat) (s : State),
    ((∃ x, i = .bcd x ∧ n = 3) ∨ (∃ x, i = .stm x ∧ n = x.toNat + 1) ∨ (∃ x, i = .ldm x ∧ n = x.toNat + 1) ∨
      (∃ x y k, i = .drw x y k ∧ n = k.toNat)) →
    (0 < n ∧ 0xFFF < s.i.toNat + n - 1 →
      exec i s = .next (s.raised (.memoryFault (BitVec.ofNat 16 (max s.i.toNat 0x1000))))) ∧
    (n = 0 ∨ s.i.toNat + n - 1 ≤ 0xFFF → ∃ t, exec i s = .next t ∧ t.run = s.run ∧ t.fault = s.fault)

/-- R75: a store is seen by the very next fetch: where Fx55 stores over the word at its own successor's address, that
word is what is fetched next. -/
def Obligations.StoreSeenByNextFetch : Prop :=
  ∀ (x k : Nibble) (s t : State), s.i.toNat + x.toNat ≤ 0xFFF → k.toNat + 1 ≤ x.toNat →
    s.pc.toNat + 2 = s.i.toNat + k.toNat → exec (.stm x) s = .next t →
    fetch t = .ok (wordOfBytes (s.getV k) (s.getV (k + 1)))

/-! ## The display -/

/-- R180: 00E0 turns every pixel off, whatever was on, and changes nothing else but `PC`. -/
def Obligations.ClearTurnsEveryPixelOff : Prop :=
  ∀ s : State, ∃ t, exec .cls s = .next t ∧ t = { s with disp := t.disp, pc := s.pc + 2 } ∧
    ∀ px < 64, ∀ py < 32, t.pixel px py = false

/-- R181: Dxyn toggles exactly the pixels `((col + V[x]) mod 64, (row + V[y]) mod 32)` of the sprite's set bits, bit 7
leftmost, changes nothing else but `PC`, VF included, and beyond memory raises `MemoryFault(max(I, 0x1000))`. -/
def Obligations.DrawTogglesWrappedSpriteBits : Prop :=
  ∀ (x y n : Nibble) (s : State),
    (n.toNat = 0 ∨ s.i.toNat + n.toNat - 1 ≤ 0xFFF → ∃ t,
      exec (.drw x y n) s = .next t ∧ t = { s with disp := t.disp, pc := s.pc + 2 } ∧
      ∀ px < 64, ∀ py < 32,
        (t.pixel px py ≠ s.pixel px py ↔
          ∃ row col, row < n.toNat ∧ col < 8 ∧ (s.byteAt (s.i.toNat + row)).getLsbD (7 - col) = true ∧
            (col + (s.getV x).toNat) % 64 = px ∧ (row + (s.getV y).toNat) % 32 = py)) ∧
    (0 < n.toNat ∧ 0xFFF < s.i.toNat + n.toNat - 1 →
      exec (.drw x y n) s = .next (s.raised (.memoryFault (if s.i.toNat < 0x1000 then 0x1000 else s.i))))

/-- R183: drawing the same sprite twice at the same place, with the same `I`, `V[x]`, `V[y]`, `n` and memory, restores
the display exactly. -/
def Obligations.DrawTwiceRestoresDisplay : Prop :=
  ∀ (x y n : Nibble) (s : State), n.toNat = 0 ∨ s.i.toNat + n.toNat - 1 ≤ 0xFFF →
    ∃ t u, exec (.drw x y n) s = .next t ∧ exec (.drw x y n) t = .next u ∧ u = { s with pc := s.pc + 4 }

/-! ## Random, keypad and timers -/

/-- R190: Cxnn writes a random byte under the mask and nothing else but `PC` (and the model's draw counter). The byte
is `Config.rnd`, which has no body, so this holds for every value of it; the bits outside the mask end 0. -/
def Obligations.RandomByteUnderMask : Prop :=
  ∀ (x : Nibble) (nn : Byte) (s : State), ∃ r : Byte,
    exec (.rnd x nn) s = .next { s.setV x (r &&& nn) with pc := s.pc + 2, draws := s.draws + 1 } ∧
    r = Config.rnd s.draws ∧ ∀ b, nn.getLsbD b = false → (r &&& nn).getLsbD b = false

/-- R191, R192: Ex9E skips if the key named by `V[x]` is pressed and ExA1 if it is not; a value above 15 raises
`KeyIndexFault` with that value. -/
def Obligations.KeySkipsReadKeyState : Prop :=
  ∀ (x : Nibble) (s : State),
    (∀ h : (s.getV x).toNat < 16,
      exec (.skp x) s = .next { s with pc := if s.key[(s.getV x).toNat] then s.pc + 4 else s.pc + 2 } ∧
      exec (.sknp x) s = .next { s with pc := if s.key[(s.getV x).toNat] then s.pc + 2 else s.pc + 4 }) ∧
    (15 < (s.getV x).toNat →
      exec (.skp x) s = .next (s.raised (.keyIndexFault (s.getV x))) ∧
      exec (.sknp x) s = .next (s.raised (.keyIndexFault (s.getV x))))

/-- R193, R195, R196: Fx07 reads `DT`, Fx15 writes `DT` and Fx18 writes `ST`; nothing else but `PC` changes. -/
def Obligations.TimerReadsAndWrites : Prop :=
  ∀ (x : Nibble) (s : State),
    exec (.gdt x) s = .next { s.setV x s.dt with pc := s.pc + 2 } ∧
    exec (.sdt x) s = .next { s with dt := s.getV x, pc := s.pc + 2 } ∧
    exec (.sst x) s = .next { s with st := s.getV x, pc := s.pc + 2 }

/-- R194: Fx0A sets `RUN` to `WAIT_KEY(x)` and changes nothing else, `PC` included; the delivered key value is then
written, zero-extended, to `V[x]`, `PC` advances by 2 and the core runs again; without a request outstanding a key
value changes nothing. -/
def Obligations.KeyWaitAndDelivery : Prop :=
  ∀ (x k : Nibble) (s : State),
    exec (.keyw x) s = .next { s with run := .waitKey x } ∧
    (s.run = .waitKey x → applyEvent (.keyEvent k) s =
      .next { s.setV x (BitVec.ofNat 8 k.toNat) with pc := s.pc + 2, run := .running }) ∧
    ((∀ z, s.run ≠ .waitKey z) → applyEvent (.keyEvent k) s = .next s)

/-! ## Frames and whole-machine rules -/

/-- R20, R21: an instruction changes no register but its destinations, and VF only where its rule names a flag: 8xy6,
8xy7, 8xyE, and 8xy4, 8xy5 under `CARRY_BORROW` (`mayWriteV` lists them for all 34 instructions). -/
def Obligations.InstructionsKeepOtherRegisters : Prop :=
  ∀ (i : Instr) (s t : State) (z : Nibble),
    exec i s = .next t → ¬ mayWriteV s.params i z → t.getV z = s.getV z

/-- R65: Fx33 and Fx55 change no byte outside `I` to `I + 2` and `I` to `I + x`, and no other instruction changes any
byte (`storedBytes` is 3, `x + 1`, and 0 for the others). -/
def Obligations.InstructionsKeepOtherMemory : Prop :=
  ∀ (i : Instr) (s t : State) (a : Nat), exec i s = .next t →
    a < s.i.toNat ∨ s.i.toNat + storedBytes i ≤ a → t.byteAt a = s.byteAt a

/-- R24 to R32: what every instruction leaves alone of the other state: `I` but for Annn, Fx1E, Fx29; `SP` and the
stack but for 2nnn and 00EE (which writes no slot); the display but for 00E0 and Dxyn; `DT` but for Fx15; `ST` but for
Fx18; `KEY` and `IR` always; and the model's own fields, the draw counter but for Cxnn. -/
def Obligations.InstructionsKeepOtherState : Prop :=
  ∀ (i : Instr) (s t : State), exec i s = .next t →
    ((∀ nnn, i ≠ .ldix nnn) → (∀ x, i ≠ .addix x) → (∀ x, i ≠ .font x) → t.i = s.i) ∧
    ((∀ nnn, i ≠ .call nnn) → i ≠ .ret → t.sp = s.sp) ∧
    ((∀ nnn, i ≠ .call nnn) → t.stack = s.stack) ∧
    (∀ (k : Nat) (hk : k < 16), k ≠ s.sp.toNat → t.stack[k] = s.stack[k]) ∧
    (i ≠ .cls → (∀ x y n, i ≠ .drw x y n) → t.disp = s.disp) ∧
    ((∀ x, i ≠ .sdt x) → t.dt = s.dt) ∧ ((∀ x, i ≠ .sst x) → t.st = s.st) ∧
    t.key = s.key ∧ t.ir = s.ir ∧ t.started = s.started ∧ t.params = s.params ∧ t.schedule = s.schedule ∧
    ((∀ x nn, i ≠ .rnd x nn) → t.draws = s.draws)

/-- R120: an instruction that completes and is not a jump, call, return, skip or Fx0A advances `PC` by exactly 2. -/
def Obligations.OtherInstructionsAdvanceByTwo : Prop :=
  ∀ (i : Instr) (s t : State), ¬ setsPcItself i → exec i s = .next t → ¬ t.isHalted →
    t.pc = s.pc + 2

/-- R217: an instruction that faults makes none of its writes: only the run state and the fault record change, `PC`
stays at the instruction, and the outputs `halted` and `fault` go active. -/
def Obligations.FaultingInstructionWritesNothing : Prop :=
  ∀ (i : Instr) (s t : State), s.run = .running → exec i s = .next t → t.isHalted →
    ∃ f : CoreFault,
      t = { s with run := .halted f.cause, fault := some { datum := f, pc := s.pc, ir := s.ir } } ∧
      t.haltedOut = true

/-- R210, R220, R68: each cause is raised by its own instructions and no other, in the case its rule names, with the
information the rule lists (`SP` within its bounds, R27). -/
def Obligations.FaultsOfEachInstruction : Prop :=
  ∀ (i : Instr) (s : State) (f : CoreFault), s.run = .running → s.sp.toNat ≤ 16 → exec i s = .next (s.raised f) →
    (∃ nnn, i = .call nnn ∧ s.sp.toNat = 16 ∧ f = .stackOverflow s.ir) ∨
    (i = .ret ∧ s.sp.toNat = 0 ∧ f = .stackUnderflow s.ir) ∨
    (∃ x, (i = .skp x ∨ i = .sknp x) ∧ 15 < (s.getV x).toNat ∧ f = .keyIndexFault (s.getV x)) ∨
    (((∃ x, i = .bcd x ∧ 0xFFF < s.i.toNat + 2) ∨ (∃ x, i = .stm x ∧ 0xFFF < s.i.toNat + x.toNat) ∨
        (∃ x, i = .ldm x ∧ 0xFFF < s.i.toNat + x.toNat) ∨
        (∃ x y n, i = .drw x y n ∧ 0 < n.toNat ∧ 0xFFF < s.i.toNat + n.toNat - 1)) ∧
      f = .memoryFault (if s.i.toNat < 0x1000 then 0x1000 else s.i))

/-- R34: the run state leaves `RUNNING` by Fx0A, to `WAIT_KEY` of its own register, and by a fault, in no other way. -/
def Obligations.RunStateChangesOnlyByWaitOrFault : Prop :=
  ∀ (i : Instr) (s t : State), s.run = .running → exec i s = .next t →
    t.run = .running ∨ (∃ x, i = .keyw x ∧ t.run = .waitKey x) ∨ (∃ r, t.fault = some r ∧ t.run = .halted r.datum.cause)
end

