-- ==== Sys2Proof/Laws/Display.lean ====
section
/-! SUPPORT. The blit, pixel by pixel (43_display R181, R182). -/

namespace Sys2Proof.Machine

/-- The sprite column that lands on screen column `px` when the sprite starts at `left` (R181), 0 to 63. -/
abbrev spriteCol (px left : Nat) : Nat := (px + 64 - left % 64) % 64

/-- The sprite row that lands on screen row `py` when the sprite starts at `top` (R181), 0 to 31. -/
abbrev spriteRow (py top : Nat) : Nat := (py + 32 - top % 32) % 32

variable (d : Vector (BitVec 64) 32) (px py : Nat)

/-- Two displays with the same pixels are the same. -/
theorem display_ext {d e : Vector (BitVec 64) 32}
    (h : ∀ px < 64, ∀ py < 32, pixelOf d px py = pixelOf e px py) : d = e := by
  apply Vector.ext
  intro py hy
  apply BitVec.eq_of_getLsbD_eq
  intro px hx
  simpa [pixelOf, hy] using h px hx py hy

/-- A blank display has every pixel off. -/
theorem pixelOf_blank (hy : py < 32) : pixelOf (Vector.replicate 32 0) px py = false := by
  simp [pixelOf, hy]

/-- A toggle changes the one pixel its wrapped coordinates name. -/
theorem pixelOf_togglePixel (a t : Nat) (hx : px < 64) (hy : py < 32) :
    pixelOf (togglePixel d a t) px py = (pixelOf d px py ^^ (decide (a % 64 = px) && decide (t % 32 = py))) := by
  unfold pixelOf togglePixel
  have ha : a % 64 < 64 := Nat.mod_lt _ (by decide)
  by_cases ht : t % 32 = py
  · subst ht
    have hbit : (1#64 <<< (a % 64)).getLsbD px = decide (a % 64 = px) := by
      rw [BitVec.getLsbD_shiftLeft, BitVec.getLsbD_one]
      by_cases h : a % 64 = px
      · simp [h, hx]
      · simp [h, hx]
        omega
    simp [hbit, hy]
  · simp [ht]

/-- A sprite row toggles the pixels of its set bits, on the one screen row it lands on. -/
theorem pixelOf_drawRow (b : Byte) (left top : Nat) (hx : px < 64) (hy : py < 32) :
    pixelOf (drawRow d b left top) px py =
      (pixelOf d px py ^^
        (decide (top % 32 = py) && (decide (spriteCol px left < 8) && b.getLsbD (7 - spriteCol px left)))) := by
  have hstep : ∀ (d : Vector (BitVec 64) 32) (c : Bool) (a : Nat),
      pixelOf (if c then togglePixel d a top else d) px py =
        (pixelOf d px py ^^ (c && (decide (a % 64 = px) && decide (top % 32 = py)))) := by
    intro d c a
    cases c
    · simp
    · simp [pixelOf_togglePixel d px py a top hx hy]
  have hcol : ∀ k, k < 8 → decide ((k + left) % 64 = px) = decide (spriteCol px left = k) := by
    intro k hk
    unfold spriteCol
    exact decide_eq_decide.mpr (by omega)
  have hr : List.range 8 = [0, 1, 2, 3, 4, 5, 6, 7] := by decide
  simp only [drawRow, hr, List.foldl_cons, List.foldl_nil, hstep, hcol 0 (by omega), hcol 1 (by omega),
    hcol 2 (by omega), hcol 3 (by omega), hcol 4 (by omega), hcol 5 (by omega), hcol 6 (by omega), hcol 7 (by omega)]
  generalize spriteCol px left = c
  by_cases hc : c < 8
  · interval_cases c <;> simp [Bool.and_comm]
  · have hne : ∀ k, k < 8 → ¬ c = k := by intro k hk; omega
    simp [hc, hne 0, hne 1, hne 2, hne 3, hne 4, hne 5, hne 6, hne 7]

/-- The blit: a pixel is toggled exactly when a set bit of the sprite lands on it after wrapping both coordinates. At
most 32 rows land on distinct screen rows (R182 (c)). -/
theorem pixelOf_drawRows (bs : List Byte) (left top : Nat) (hx : px < 64) (hy : py < 32) (hn : bs.length ≤ 32) :
    pixelOf (drawRows d left top bs) px py =
      (pixelOf d px py ^^
        (decide (spriteRow py top < bs.length) && (decide (spriteCol px left < 8) &&
          (bs[spriteRow py top]?.getD 0).getLsbD (7 - spriteCol px left)))) := by
  induction bs generalizing d top with
  | nil => simp [drawRows]
  | cons b bs ih =>
    simp only [List.length_cons] at hn
    rw [drawRows, ih _ _ (by omega), pixelOf_drawRow d px py b left top hx hy]
    by_cases ht : top % 32 = py
    · have h0 : spriteRow py top = 0 := by unfold spriteRow; omega
      have h1 : ¬ spriteRow py (top + 1) < bs.length := by unfold spriteRow; omega
      simp [ht, h0, h1]
    · have h1 : spriteRow py top = spriteRow py (top + 1) + 1 := by unfold spriteRow; omega
      simp [ht, h1]

end Sys2Proof.Machine
end

