-- ==== Sys2Proof/Laws/Encode.lean ====
section
/-! SUPPORT. The fields of an encoded word (30_encoding R92, R93): each format puts every operand into its own field
and leaves the pattern's other bits alone. -/

namespace Sys2Proof

variable (pat : Word) (x y n : Nibble) (nn : Byte) (nnn : Addr12)

/-! ## Format `ADDR` -/

/-- `nnn` does not reach the family. -/
theorem opField_encAddr : opField (encAddr pat nnn) = opField pat := by
  apply BitVec.eq_of_getLsbD_eq
  intro i hi
  interval_cases i <;> simp [opField, encAddr]

/-- `nnn` is read back, over the pattern's own low bits. -/
theorem nnnField_encAddr : nnnField (encAddr pat nnn) = nnnField pat ||| nnn := by
  apply BitVec.eq_of_getLsbD_eq
  intro i hi
  interval_cases i <;> simp [nnnField, encAddr]

/-! ## Format `REG_IMM` -/

/-- `x` and `nn` do not reach the family. -/
theorem opField_encRegImm : opField (encRegImm pat x nn) = opField pat := by
  apply BitVec.eq_of_getLsbD_eq
  intro i hi
  interval_cases i <;> simp [opField, encRegImm]

/-- `x` is read back. -/
theorem xField_encRegImm : xField (encRegImm pat x nn) = xField pat ||| x := by
  apply BitVec.eq_of_getLsbD_eq
  intro i hi
  interval_cases i <;> simp [xField, encRegImm]

/-- `nn` is read back. -/
theorem nnField_encRegImm : nnField (encRegImm pat x nn) = nnField pat ||| nn := by
  apply BitVec.eq_of_getLsbD_eq
  intro i hi
  interval_cases i <;> simp [nnField, encRegImm]

/-! ## Format `REG_REG` -/

/-- `x`, `y` and `n` do not reach the family. -/
theorem opField_encRegReg : opField (encRegReg pat x y n) = opField pat := by
  apply BitVec.eq_of_getLsbD_eq
  intro i hi
  interval_cases i <;> simp [opField, encRegReg]

/-- `x` is read back. -/
theorem xField_encRegReg : xField (encRegReg pat x y n) = xField pat ||| x := by
  apply BitVec.eq_of_getLsbD_eq
  intro i hi
  interval_cases i <;> simp [xField, encRegReg]

/-- `y` is read back. -/
theorem yField_encRegReg : yField (encRegReg pat x y n) = yField pat ||| y := by
  apply BitVec.eq_of_getLsbD_eq
  intro i hi
  interval_cases i <;> simp [yField, encRegReg]

/-- `n` is read back. -/
theorem nField_encRegReg : nField (encRegReg pat x y n) = nField pat ||| n := by
  apply BitVec.eq_of_getLsbD_eq
  intro i hi
  interval_cases i <;> simp [nField, encRegReg]

/-! ## Format `REG_FN` -/

/-- `x` does not reach the family. -/
theorem opField_encRegFn : opField (encRegFn pat x) = opField pat := by
  apply BitVec.eq_of_getLsbD_eq
  intro i hi
  interval_cases i <;> simp [opField, encRegFn]

/-- `x` is read back. -/
theorem xField_encRegFn : xField (encRegFn pat x) = xField pat ||| x := by
  apply BitVec.eq_of_getLsbD_eq
  intro i hi
  interval_cases i <;> simp [xField, encRegFn]

/-- `x` does not reach the function code. -/
theorem nnField_encRegFn : nnField (encRegFn pat x) = nnField pat := by
  apply BitVec.eq_of_getLsbD_eq
  intro i hi
  interval_cases i <;> simp [nnField, encRegFn]

/-! ## The same operands masked: a format's operands lie outside the row's mask -/

/-- The operand bits of format `ADDR` lie outside the mask 0xF000. -/
theorem encAddr_masked : encAddr pat nnn &&& 0xF000 = pat &&& 0xF000 := by
  apply BitVec.eq_of_getLsbD_eq
  intro i hi
  interval_cases i <;> simp [encAddr]

/-- The operand bits of format `REG_IMM` lie outside the mask 0xF000. -/
theorem encRegImm_masked : encRegImm pat x nn &&& 0xF000 = pat &&& 0xF000 := by
  apply BitVec.eq_of_getLsbD_eq
  intro i hi
  interval_cases i <;> simp [encRegImm]

/-- The operand bits of format `REG_REG` lie outside the mask 0xF000. -/
theorem encRegReg_masked : encRegReg pat x y n &&& 0xF000 = pat &&& 0xF000 := by
  apply BitVec.eq_of_getLsbD_eq
  intro i hi
  interval_cases i <;> simp [encRegReg]

/-- The register bits of format `REG_REG` lie outside the mask 0xF00F, under which the function code shows. -/
theorem encRegReg_masked_code : encRegReg pat x y n &&& 0xF00F = (pat ||| n.setWidth 16) &&& 0xF00F := by
  apply BitVec.eq_of_getLsbD_eq
  intro i hi
  interval_cases i <;> simp [encRegReg]

/-- The register bits of format `REG_FN` lie outside the mask 0xF0FF. -/
theorem encRegFn_masked : encRegFn pat x &&& 0xF0FF = pat &&& 0xF0FF := by
  apply BitVec.eq_of_getLsbD_eq
  intro i hi
  interval_cases i <;> simp [encRegFn]

/-! ## A word is its fields -/

/-- A word from its family and `nnn`. -/
theorem encAddr_fields (w : Word) : encAddr ((opField w).setWidth 16 <<< 12) (nnnField w) = w := by
  apply BitVec.eq_of_getLsbD_eq
  intro i hi
  interval_cases i <;> simp [encAddr, opField, nnnField]

/-- A word from its family, `x` and `nn`. -/
theorem encRegImm_fields (w : Word) :
    encRegImm ((opField w).setWidth 16 <<< 12) (xField w) (nnField w) = w := by
  apply BitVec.eq_of_getLsbD_eq
  intro i hi
  interval_cases i <;> simp [encRegImm, opField, xField, nnField]

/-- A word from its family, `x`, `y` and `n`. -/
theorem encRegReg_fields (w : Word) :
    encRegReg ((opField w).setWidth 16 <<< 12) (xField w) (yField w) (nField w) = w := by
  apply BitVec.eq_of_getLsbD_eq
  intro i hi
  interval_cases i <;> simp [encRegReg, opField, xField, yField, nField]

/-- A word from its family, its low byte and `x`. -/
theorem encRegFn_fields (w : Word) :
    encRegFn ((opField w).setWidth 16 <<< 12 ||| (nnField w).setWidth 16) (xField w) = w := by
  apply BitVec.eq_of_getLsbD_eq
  intro i hi
  interval_cases i <;> simp [encRegFn, opField, xField, nnField]

/-- The fields as numbers. -/
theorem fields_toNat (w : Word) :
    (opField w).toNat = w.toNat / 4096 ∧ (xField w).toNat = w.toNat / 256 % 16 ∧
    (yField w).toNat = w.toNat / 16 % 16 ∧ (nField w).toNat = w.toNat % 16 ∧
    (nnField w).toNat = w.toNat % 256 ∧ (nnnField w).toNat = w.toNat % 4096 := by
  have hw := w.isLt
  refine ⟨?_, ?_, ?_, ?_, ?_, ?_⟩ <;>
    simp [opField, xField, yField, nField, nnField, nnnField, Nat.shiftRight_eq_div_pow]
  omega

end Sys2Proof
end

