-- ==== Sys2Proof/Laws/Memory.lean ====
section
/-! SUPPORT. Memory: reads after writes, and the canonical form, which every memory operation keeps. -/

namespace Sys2Proof.Machine

variable (font : Vector Byte 80) (m : Memory) (a c : Nat) (b : Byte)

/-- An address whose cell is taken out reads as unlisted, and every other address as before. -/
theorem Memory.read_erase :
    Memory.read font (m.erase a) c = if c = a then Memory.unlisted font a else Memory.read font m c := by
  induction m with
  | nil => by_cases h : c = a <;> simp [Memory.erase, Memory.read, h]
  | cons d rest ih =>
    simp only [Memory.erase] at ih ⊢
    by_cases hd : d.1 = a
    · have hf : (d :: rest).filter (fun c => c.1 ≠ a) = rest.filter (fun c => c.1 ≠ a) := by simp [hd]
      rw [hf, ih]
      by_cases hc : c = a
      · simp [hc]
      · simp [Memory.read, hc, hd, Ne.symm hc]
    · have hf : (d :: rest).filter (fun c => c.1 ≠ a) = d :: rest.filter (fun c => c.1 ≠ a) := by simp [hd]
      rw [hf, Memory.read, ih]
      by_cases hdc : d.1 = c
      · have hc : c ≠ a := fun h => hd (hdc.trans h)
        simp [hdc, hc, Memory.read]
      · simp [hdc, Memory.read]

/-- A cell put in is read at its address where memory lists no cell of that address, and changes no other read. -/
theorem Memory.read_insert (h : ∀ d ∈ m, d.1 ≠ a) :
    Memory.read font (Memory.insert (a, b) m) c = if c = a then b else Memory.read font m c := by
  induction m with
  | nil =>
    by_cases hc : c = a
    · simp [Memory.insert, Memory.read, hc]
    · simp [Memory.insert, Memory.read, hc, Ne.symm hc]
  | cons d rest ih =>
    have hd : d.1 ≠ a := h d (by simp)
    have ih := ih (fun e he => h e (by simp [he]))
    simp only [Memory.insert]
    split
    · by_cases hc : c = a
      · simp [Memory.read, hc]
      · simp [Memory.read, hc, Ne.symm hc]
    · rw [Memory.read, ih, Memory.read]
      by_cases hdc : d.1 = c
      · have hc : c ≠ a := fun e => hd (hdc.trans e)
        simp [hdc, hc]
      · simp [hdc]

/-- No cell of the address is left after taking it out. -/
theorem Memory.erase_ne : ∀ d ∈ m.erase a, d.1 ≠ a := by
  intro d hd
  simpa using (List.mem_filter.mp hd).2

/-- A read after a write: the byte written at its address, and every other address as before. It holds of every
memory, in canonical form or not. -/
theorem Memory.read_write :
    Memory.read font (Memory.write font m a b) c = if c = a then b else Memory.read font m c := by
  unfold Memory.write
  split
  · next hb => rw [Memory.read_erase, ← hb]
  · rw [Memory.read_insert font _ a c b (Memory.erase_ne m a), Memory.read_erase]
    by_cases hc : c = a <;> simp [hc]

/-- A read after a block write: the block's byte inside it, and every other address as before. -/
theorem Memory.read_writeFrom (bs : List Byte) :
    Memory.read font (Memory.writeFrom font m a bs) c =
      if a ≤ c ∧ c < a + bs.length then bs[c - a]?.getD 0 else Memory.read font m c := by
  induction bs generalizing m a with
  | nil =>
    have : ¬ (a ≤ c ∧ c < a + ([] : List Byte).length) := by simp
    rw [if_neg this]; rfl
  | cons x xs ih =>
    rw [Memory.writeFrom, ih, Memory.read_write]
    by_cases hc : c = a
    · subst hc
      simp
    · by_cases h : a + 1 ≤ c ∧ c < a + 1 + xs.length
      · have h' : a ≤ c ∧ c < a + (x :: xs).length := by simp; omega
        have hi : c - a = (c - (a + 1)) + 1 := by omega
        rw [if_pos h, if_pos h', hi]
        simp
      · have h' : ¬ (a ≤ c ∧ c < a + (x :: xs).length) := by simp; omega
        rw [if_neg h, if_neg h', if_neg hc]

/-! ## The canonical form -/

/-- Taking a cell out keeps the canonical form. -/
theorem Memory.wf_erase (h : Memory.wf font m) : Memory.wf font (m.erase a) :=
  ⟨h.1.filter _, fun d hd => h.2 d (List.mem_filter.mp hd).1⟩

/-- The cells after an insertion are the new one and the old ones. -/
theorem Memory.mem_insert (x d : Host.Cell) : d ∈ Memory.insert x m ↔ d = x ∨ d ∈ m := by
  induction m with
  | nil => simp [Memory.insert]
  | cons e rest ih =>
    simp only [Memory.insert]
    split
    · simp
    · simp only [List.mem_cons, ih]
      tauto

/-- Putting in a cell of an address that is not listed keeps the order. -/
theorem Memory.sorted_insert (x : Host.Cell) (hs : m.Pairwise (fun c d => c.1 < d.1)) (hx : ∀ d ∈ m, d.1 ≠ x.1) :
    (Memory.insert x m).Pairwise (fun c d => c.1 < d.1) := by
  induction m with
  | nil => simp [Memory.insert]
  | cons e rest ih =>
    have he := List.pairwise_cons.mp hs
    simp only [Memory.insert]
    split
    · next hlt =>
      refine List.pairwise_cons.mpr ⟨fun d hd => ?_, hs⟩
      rcases List.mem_cons.mp hd with rfl | hd
      · exact hlt
      · exact hlt.trans (he.1 d hd)
    · next hge =>
      refine List.pairwise_cons.mpr ⟨fun d hd => ?_, ih he.2 (fun d hd => hx d (by simp [hd]))⟩
      rcases (Memory.mem_insert rest x d).mp hd with rfl | hd
      · have := hx e (by simp)
        omega
      · exact he.1 d hd

/-- A write inside the space keeps the canonical form. -/
theorem Memory.wf_write (ha : a < memSize) (h : Memory.wf font m) : Memory.wf font (Memory.write font m a b) := by
  have he := Memory.wf_erase font m a h
  unfold Memory.write
  split
  · exact he
  · next hb =>
    refine ⟨Memory.sorted_insert _ _ he.1 (Memory.erase_ne m a), fun d hd => ?_⟩
    rcases (Memory.mem_insert _ _ d).mp hd with rfl | hd
    · exact ⟨ha, hb⟩
    · exact he.2 d hd

/-- A block write inside the space keeps the canonical form. -/
theorem Memory.wf_writeFrom (bs : List Byte) (ha : a + bs.length ≤ memSize) (h : Memory.wf font m) :
    Memory.wf font (Memory.writeFrom font m a bs) := by
  induction bs generalizing m a with
  | nil => exact h
  | cons x xs ih =>
    simp only [List.length_cons] at ha
    exact ih _ _ (by omega) (Memory.wf_write font m a x (by omega) h)

/-- Memory with nothing listed is in canonical form. -/
theorem Memory.wf_nil : Memory.wf font [] := by simp [Memory.wf]

/-! ## The same of a state -/

/-- A read after a write of one byte of a state. -/
@[simp] theorem State.setByteAt_byteAt (s : State) :
    (s.setByteAt a b).byteAt c = if c = a then b else s.byteAt c :=
  Memory.read_write s.params.font s.mem a c b

/-- A read after a block write of a state. -/
theorem State.setBytesFrom_byteAt (s : State) (bs : List Byte) :
    (s.setBytesFrom a bs).byteAt c =
      if a ≤ c ∧ c < a + bs.length then bs[c - a]?.getD 0 else s.byteAt c :=
  Memory.read_writeFrom s.params.font s.mem a c bs

/-- The number of bytes a block read gives. -/
@[simp] theorem State.length_bytesFrom (s : State) (n : Nat) : (s.bytesFrom a n).length = n := by
  induction n generalizing a with
  | zero => rfl
  | succ n ih => simp [State.bytesFrom, ih]

/-- The bytes a block read gives, one by one. -/
theorem State.getElem?_bytesFrom (s : State) (n k : Nat) (h : k < n) :
    (s.bytesFrom a n)[k]? = some (s.byteAt (a + k)) := by
  induction n generalizing a k with
  | zero => omega
  | succ n ih =>
    cases k with
    | zero => simp [State.bytesFrom]
    | succ k => simp [State.bytesFrom, ih (a + 1) k (by omega), Nat.add_comm, Nat.add_left_comm]

end Sys2Proof.Machine
end

