-- ==== Sys2Proof/Laws/State.lean ====
section
/-! SUPPORT. One lemma per field per named update of the state, true by rfl, so that no proof unfolds an update. -/

namespace Sys2Proof.Machine

variable (s : State)

/-! ## `State.advance` -/

@[simp] theorem State.advance_v (k : Word) : (s.advance k).v = s.v := rfl
@[simp] theorem State.advance_i (k : Word) : (s.advance k).i = s.i := rfl
@[simp] theorem State.advance_pc (k : Word) : (s.advance k).pc = s.pc + k := rfl
@[simp] theorem State.advance_sp (k : Word) : (s.advance k).sp = s.sp := rfl
@[simp] theorem State.advance_stack (k : Word) : (s.advance k).stack = s.stack := rfl
@[simp] theorem State.advance_mem (k : Word) : (s.advance k).mem = s.mem := rfl
@[simp] theorem State.advance_disp (k : Word) : (s.advance k).disp = s.disp := rfl
@[simp] theorem State.advance_dt (k : Word) : (s.advance k).dt = s.dt := rfl
@[simp] theorem State.advance_st (k : Word) : (s.advance k).st = s.st := rfl
@[simp] theorem State.advance_key (k : Word) : (s.advance k).key = s.key := rfl
@[simp] theorem State.advance_ir (k : Word) : (s.advance k).ir = s.ir := rfl
@[simp] theorem State.advance_run (k : Word) : (s.advance k).run = s.run := rfl
@[simp] theorem State.advance_fault (k : Word) : (s.advance k).fault = s.fault := rfl
@[simp] theorem State.advance_started (k : Word) : (s.advance k).started = s.started := rfl
@[simp] theorem State.advance_draws (k : Word) : (s.advance k).draws = s.draws := rfl
@[simp] theorem State.advance_params (k : Word) : (s.advance k).params = s.params := rfl
@[simp] theorem State.advance_schedule (k : Word) : (s.advance k).schedule = s.schedule := rfl
@[simp] theorem State.advance_byteAt (k : Word) (c : Nat) : (s.advance k).byteAt c = s.byteAt c := rfl
@[simp] theorem State.advance_getV (k : Word) (z : Nibble) : (s.advance k).getV z = s.getV z := rfl

/-! ## `State.jumpTo` -/

@[simp] theorem State.jumpTo_v (a : Word) : (s.jumpTo a).v = s.v := rfl
@[simp] theorem State.jumpTo_i (a : Word) : (s.jumpTo a).i = s.i := rfl
@[simp] theorem State.jumpTo_pc (a : Word) : (s.jumpTo a).pc = a := rfl
@[simp] theorem State.jumpTo_sp (a : Word) : (s.jumpTo a).sp = s.sp := rfl
@[simp] theorem State.jumpTo_stack (a : Word) : (s.jumpTo a).stack = s.stack := rfl
@[simp] theorem State.jumpTo_mem (a : Word) : (s.jumpTo a).mem = s.mem := rfl
@[simp] theorem State.jumpTo_disp (a : Word) : (s.jumpTo a).disp = s.disp := rfl
@[simp] theorem State.jumpTo_dt (a : Word) : (s.jumpTo a).dt = s.dt := rfl
@[simp] theorem State.jumpTo_st (a : Word) : (s.jumpTo a).st = s.st := rfl
@[simp] theorem State.jumpTo_key (a : Word) : (s.jumpTo a).key = s.key := rfl
@[simp] theorem State.jumpTo_ir (a : Word) : (s.jumpTo a).ir = s.ir := rfl
@[simp] theorem State.jumpTo_run (a : Word) : (s.jumpTo a).run = s.run := rfl
@[simp] theorem State.jumpTo_fault (a : Word) : (s.jumpTo a).fault = s.fault := rfl
@[simp] theorem State.jumpTo_started (a : Word) : (s.jumpTo a).started = s.started := rfl
@[simp] theorem State.jumpTo_draws (a : Word) : (s.jumpTo a).draws = s.draws := rfl
@[simp] theorem State.jumpTo_params (a : Word) : (s.jumpTo a).params = s.params := rfl
@[simp] theorem State.jumpTo_schedule (a : Word) : (s.jumpTo a).schedule = s.schedule := rfl
@[simp] theorem State.jumpTo_byteAt (a : Word) (c : Nat) : (s.jumpTo a).byteAt c = s.byteAt c := rfl
@[simp] theorem State.jumpTo_getV (a : Word) (z : Nibble) : (s.jumpTo a).getV z = s.getV z := rfl

/-! ## `State.setV` -/

@[simp] theorem State.setV_v (x : Nibble) (b : Byte) : (s.setV x b).v = s.v.set x.toNat b x.isLt := rfl
@[simp] theorem State.setV_i (x : Nibble) (b : Byte) : (s.setV x b).i = s.i := rfl
@[simp] theorem State.setV_pc (x : Nibble) (b : Byte) : (s.setV x b).pc = s.pc := rfl
@[simp] theorem State.setV_sp (x : Nibble) (b : Byte) : (s.setV x b).sp = s.sp := rfl
@[simp] theorem State.setV_stack (x : Nibble) (b : Byte) : (s.setV x b).stack = s.stack := rfl
@[simp] theorem State.setV_mem (x : Nibble) (b : Byte) : (s.setV x b).mem = s.mem := rfl
@[simp] theorem State.setV_disp (x : Nibble) (b : Byte) : (s.setV x b).disp = s.disp := rfl
@[simp] theorem State.setV_dt (x : Nibble) (b : Byte) : (s.setV x b).dt = s.dt := rfl
@[simp] theorem State.setV_st (x : Nibble) (b : Byte) : (s.setV x b).st = s.st := rfl
@[simp] theorem State.setV_key (x : Nibble) (b : Byte) : (s.setV x b).key = s.key := rfl
@[simp] theorem State.setV_ir (x : Nibble) (b : Byte) : (s.setV x b).ir = s.ir := rfl
@[simp] theorem State.setV_run (x : Nibble) (b : Byte) : (s.setV x b).run = s.run := rfl
@[simp] theorem State.setV_fault (x : Nibble) (b : Byte) : (s.setV x b).fault = s.fault := rfl
@[simp] theorem State.setV_started (x : Nibble) (b : Byte) : (s.setV x b).started = s.started := rfl
@[simp] theorem State.setV_draws (x : Nibble) (b : Byte) : (s.setV x b).draws = s.draws := rfl
@[simp] theorem State.setV_params (x : Nibble) (b : Byte) : (s.setV x b).params = s.params := rfl
@[simp] theorem State.setV_schedule (x : Nibble) (b : Byte) : (s.setV x b).schedule = s.schedule := rfl
@[simp] theorem State.setV_byteAt (x : Nibble) (b : Byte) (c : Nat) : (s.setV x b).byteAt c = s.byteAt c := rfl

/-! ## `State.setVF` -/

@[simp] theorem State.setVF_v (b : Byte) : (s.setVF b).v = s.v.set 15 b := rfl
@[simp] theorem State.setVF_i (b : Byte) : (s.setVF b).i = s.i := rfl
@[simp] theorem State.setVF_pc (b : Byte) : (s.setVF b).pc = s.pc := rfl
@[simp] theorem State.setVF_sp (b : Byte) : (s.setVF b).sp = s.sp := rfl
@[simp] theorem State.setVF_stack (b : Byte) : (s.setVF b).stack = s.stack := rfl
@[simp] theorem State.setVF_mem (b : Byte) : (s.setVF b).mem = s.mem := rfl
@[simp] theorem State.setVF_disp (b : Byte) : (s.setVF b).disp = s.disp := rfl
@[simp] theorem State.setVF_dt (b : Byte) : (s.setVF b).dt = s.dt := rfl
@[simp] theorem State.setVF_st (b : Byte) : (s.setVF b).st = s.st := rfl
@[simp] theorem State.setVF_key (b : Byte) : (s.setVF b).key = s.key := rfl
@[simp] theorem State.setVF_ir (b : Byte) : (s.setVF b).ir = s.ir := rfl
@[simp] theorem State.setVF_run (b : Byte) : (s.setVF b).run = s.run := rfl
@[simp] theorem State.setVF_fault (b : Byte) : (s.setVF b).fault = s.fault := rfl
@[simp] theorem State.setVF_started (b : Byte) : (s.setVF b).started = s.started := rfl
@[simp] theorem State.setVF_draws (b : Byte) : (s.setVF b).draws = s.draws := rfl
@[simp] theorem State.setVF_params (b : Byte) : (s.setVF b).params = s.params := rfl
@[simp] theorem State.setVF_schedule (b : Byte) : (s.setVF b).schedule = s.schedule := rfl
@[simp] theorem State.setVF_byteAt (b : Byte) (c : Nat) : (s.setVF b).byteAt c = s.byteAt c := rfl

/-! ## `State.setByteAt` -/

@[simp] theorem State.setByteAt_v (a : Nat) (b : Byte) : (s.setByteAt a b).v = s.v := rfl
@[simp] theorem State.setByteAt_i (a : Nat) (b : Byte) : (s.setByteAt a b).i = s.i := rfl
@[simp] theorem State.setByteAt_pc (a : Nat) (b : Byte) : (s.setByteAt a b).pc = s.pc := rfl
@[simp] theorem State.setByteAt_sp (a : Nat) (b : Byte) : (s.setByteAt a b).sp = s.sp := rfl
@[simp] theorem State.setByteAt_stack (a : Nat) (b : Byte) : (s.setByteAt a b).stack = s.stack := rfl
@[simp] theorem State.setByteAt_mem (a : Nat) (b : Byte) : (s.setByteAt a b).mem = Memory.write s.params.font s.mem a b := rfl
@[simp] theorem State.setByteAt_disp (a : Nat) (b : Byte) : (s.setByteAt a b).disp = s.disp := rfl
@[simp] theorem State.setByteAt_dt (a : Nat) (b : Byte) : (s.setByteAt a b).dt = s.dt := rfl
@[simp] theorem State.setByteAt_st (a : Nat) (b : Byte) : (s.setByteAt a b).st = s.st := rfl
@[simp] theorem State.setByteAt_key (a : Nat) (b : Byte) : (s.setByteAt a b).key = s.key := rfl
@[simp] theorem State.setByteAt_ir (a : Nat) (b : Byte) : (s.setByteAt a b).ir = s.ir := rfl
@[simp] theorem State.setByteAt_run (a : Nat) (b : Byte) : (s.setByteAt a b).run = s.run := rfl
@[simp] theorem State.setByteAt_fault (a : Nat) (b : Byte) : (s.setByteAt a b).fault = s.fault := rfl
@[simp] theorem State.setByteAt_started (a : Nat) (b : Byte) : (s.setByteAt a b).started = s.started := rfl
@[simp] theorem State.setByteAt_draws (a : Nat) (b : Byte) : (s.setByteAt a b).draws = s.draws := rfl
@[simp] theorem State.setByteAt_params (a : Nat) (b : Byte) : (s.setByteAt a b).params = s.params := rfl
@[simp] theorem State.setByteAt_schedule (a : Nat) (b : Byte) : (s.setByteAt a b).schedule = s.schedule := rfl
@[simp] theorem State.setByteAt_getV (a : Nat) (b : Byte) (z : Nibble) : (s.setByteAt a b).getV z = s.getV z := rfl

/-! ## `State.setBytesFrom` -/

@[simp] theorem State.setBytesFrom_v (a : Nat) (bs : List Byte) : (s.setBytesFrom a bs).v = s.v := rfl
@[simp] theorem State.setBytesFrom_i (a : Nat) (bs : List Byte) : (s.setBytesFrom a bs).i = s.i := rfl
@[simp] theorem State.setBytesFrom_pc (a : Nat) (bs : List Byte) : (s.setBytesFrom a bs).pc = s.pc := rfl
@[simp] theorem State.setBytesFrom_sp (a : Nat) (bs : List Byte) : (s.setBytesFrom a bs).sp = s.sp := rfl
@[simp] theorem State.setBytesFrom_stack (a : Nat) (bs : List Byte) : (s.setBytesFrom a bs).stack = s.stack := rfl
@[simp] theorem State.setBytesFrom_mem (a : Nat) (bs : List Byte) : (s.setBytesFrom a bs).mem = Memory.writeFrom s.params.font s.mem a bs := rfl
@[simp] theorem State.setBytesFrom_disp (a : Nat) (bs : List Byte) : (s.setBytesFrom a bs).disp = s.disp := rfl
@[simp] theorem State.setBytesFrom_dt (a : Nat) (bs : List Byte) : (s.setBytesFrom a bs).dt = s.dt := rfl
@[simp] theorem State.setBytesFrom_st (a : Nat) (bs : List Byte) : (s.setBytesFrom a bs).st = s.st := rfl
@[simp] theorem State.setBytesFrom_key (a : Nat) (bs : List Byte) : (s.setBytesFrom a bs).key = s.key := rfl
@[simp] theorem State.setBytesFrom_ir (a : Nat) (bs : List Byte) : (s.setBytesFrom a bs).ir = s.ir := rfl
@[simp] theorem State.setBytesFrom_run (a : Nat) (bs : List Byte) : (s.setBytesFrom a bs).run = s.run := rfl
@[simp] theorem State.setBytesFrom_fault (a : Nat) (bs : List Byte) : (s.setBytesFrom a bs).fault = s.fault := rfl
@[simp] theorem State.setBytesFrom_started (a : Nat) (bs : List Byte) : (s.setBytesFrom a bs).started = s.started := rfl
@[simp] theorem State.setBytesFrom_draws (a : Nat) (bs : List Byte) : (s.setBytesFrom a bs).draws = s.draws := rfl
@[simp] theorem State.setBytesFrom_params (a : Nat) (bs : List Byte) : (s.setBytesFrom a bs).params = s.params := rfl
@[simp] theorem State.setBytesFrom_schedule (a : Nat) (bs : List Byte) : (s.setBytesFrom a bs).schedule = s.schedule := rfl
@[simp] theorem State.setBytesFrom_getV (a : Nat) (bs : List Byte) (z : Nibble) : (s.setBytesFrom a bs).getV z = s.getV z := rfl

/-! ## `State.raised` -/

@[simp] theorem State.raised_v (f : CoreFault) : (s.raised f).v = s.v := rfl
@[simp] theorem State.raised_i (f : CoreFault) : (s.raised f).i = s.i := rfl
@[simp] theorem State.raised_pc (f : CoreFault) : (s.raised f).pc = s.pc := rfl
@[simp] theorem State.raised_sp (f : CoreFault) : (s.raised f).sp = s.sp := rfl
@[simp] theorem State.raised_stack (f : CoreFault) : (s.raised f).stack = s.stack := rfl
@[simp] theorem State.raised_mem (f : CoreFault) : (s.raised f).mem = s.mem := rfl
@[simp] theorem State.raised_disp (f : CoreFault) : (s.raised f).disp = s.disp := rfl
@[simp] theorem State.raised_dt (f : CoreFault) : (s.raised f).dt = s.dt := rfl
@[simp] theorem State.raised_st (f : CoreFault) : (s.raised f).st = s.st := rfl
@[simp] theorem State.raised_key (f : CoreFault) : (s.raised f).key = s.key := rfl
@[simp] theorem State.raised_ir (f : CoreFault) : (s.raised f).ir = s.ir := rfl
@[simp] theorem State.raised_run (f : CoreFault) : (s.raised f).run = .halted f.cause := rfl
@[simp] theorem State.raised_fault (f : CoreFault) : (s.raised f).fault = some { datum := f, pc := s.pc, ir := s.ir } := rfl
@[simp] theorem State.raised_started (f : CoreFault) : (s.raised f).started = s.started := rfl
@[simp] theorem State.raised_draws (f : CoreFault) : (s.raised f).draws = s.draws := rfl
@[simp] theorem State.raised_params (f : CoreFault) : (s.raised f).params = s.params := rfl
@[simp] theorem State.raised_schedule (f : CoreFault) : (s.raised f).schedule = s.schedule := rfl
@[simp] theorem State.raised_byteAt (f : CoreFault) (c : Nat) : (s.raised f).byteAt c = s.byteAt c := rfl
@[simp] theorem State.raised_getV (f : CoreFault) (z : Nibble) : (s.raised f).getV z = s.getV z := rfl

/-! ## `State.tickDt` -/

@[simp] theorem State.tickDt_v : s.tickDt.v = s.v := rfl
@[simp] theorem State.tickDt_i : s.tickDt.i = s.i := rfl
@[simp] theorem State.tickDt_pc : s.tickDt.pc = s.pc := rfl
@[simp] theorem State.tickDt_sp : s.tickDt.sp = s.sp := rfl
@[simp] theorem State.tickDt_stack : s.tickDt.stack = s.stack := rfl
@[simp] theorem State.tickDt_mem : s.tickDt.mem = s.mem := rfl
@[simp] theorem State.tickDt_disp : s.tickDt.disp = s.disp := rfl
@[simp] theorem State.tickDt_dt : s.tickDt.dt = if 0 < s.dt.toNat then s.dt - 1 else s.dt := rfl
@[simp] theorem State.tickDt_st : s.tickDt.st = s.st := rfl
@[simp] theorem State.tickDt_key : s.tickDt.key = s.key := rfl
@[simp] theorem State.tickDt_ir : s.tickDt.ir = s.ir := rfl
@[simp] theorem State.tickDt_run : s.tickDt.run = s.run := rfl
@[simp] theorem State.tickDt_fault : s.tickDt.fault = s.fault := rfl
@[simp] theorem State.tickDt_started : s.tickDt.started = s.started := rfl
@[simp] theorem State.tickDt_draws : s.tickDt.draws = s.draws := rfl
@[simp] theorem State.tickDt_params : s.tickDt.params = s.params := rfl
@[simp] theorem State.tickDt_schedule : s.tickDt.schedule = s.schedule := rfl
@[simp] theorem State.tickDt_byteAt (c : Nat) : s.tickDt.byteAt c = s.byteAt c := rfl
@[simp] theorem State.tickDt_getV (z : Nibble) : s.tickDt.getV z = s.getV z := rfl

/-! ## `State.tickSt` -/

@[simp] theorem State.tickSt_v : s.tickSt.v = s.v := rfl
@[simp] theorem State.tickSt_i : s.tickSt.i = s.i := rfl
@[simp] theorem State.tickSt_pc : s.tickSt.pc = s.pc := rfl
@[simp] theorem State.tickSt_sp : s.tickSt.sp = s.sp := rfl
@[simp] theorem State.tickSt_stack : s.tickSt.stack = s.stack := rfl
@[simp] theorem State.tickSt_mem : s.tickSt.mem = s.mem := rfl
@[simp] theorem State.tickSt_disp : s.tickSt.disp = s.disp := rfl
@[simp] theorem State.tickSt_dt : s.tickSt.dt = s.dt := rfl
@[simp] theorem State.tickSt_st : s.tickSt.st = if 0 < s.st.toNat then s.st - 1 else s.st := rfl
@[simp] theorem State.tickSt_key : s.tickSt.key = s.key := rfl
@[simp] theorem State.tickSt_ir : s.tickSt.ir = s.ir := rfl
@[simp] theorem State.tickSt_run : s.tickSt.run = s.run := rfl
@[simp] theorem State.tickSt_fault : s.tickSt.fault = s.fault := rfl
@[simp] theorem State.tickSt_started : s.tickSt.started = s.started := rfl
@[simp] theorem State.tickSt_draws : s.tickSt.draws = s.draws := rfl
@[simp] theorem State.tickSt_params : s.tickSt.params = s.params := rfl
@[simp] theorem State.tickSt_schedule : s.tickSt.schedule = s.schedule := rfl
@[simp] theorem State.tickSt_byteAt (c : Nat) : s.tickSt.byteAt c = s.byteAt c := rfl
@[simp] theorem State.tickSt_getV (z : Nibble) : s.tickSt.getV z = s.getV z := rfl

/-! ## `State.setKey` -/

@[simp] theorem State.setKey_v (k : Nibble) (p : Bool) : (s.setKey k p).v = s.v := rfl
@[simp] theorem State.setKey_i (k : Nibble) (p : Bool) : (s.setKey k p).i = s.i := rfl
@[simp] theorem State.setKey_pc (k : Nibble) (p : Bool) : (s.setKey k p).pc = s.pc := rfl
@[simp] theorem State.setKey_sp (k : Nibble) (p : Bool) : (s.setKey k p).sp = s.sp := rfl
@[simp] theorem State.setKey_stack (k : Nibble) (p : Bool) : (s.setKey k p).stack = s.stack := rfl
@[simp] theorem State.setKey_mem (k : Nibble) (p : Bool) : (s.setKey k p).mem = s.mem := rfl
@[simp] theorem State.setKey_disp (k : Nibble) (p : Bool) : (s.setKey k p).disp = s.disp := rfl
@[simp] theorem State.setKey_dt (k : Nibble) (p : Bool) : (s.setKey k p).dt = s.dt := rfl
@[simp] theorem State.setKey_st (k : Nibble) (p : Bool) : (s.setKey k p).st = s.st := rfl
@[simp] theorem State.setKey_key (k : Nibble) (p : Bool) : (s.setKey k p).key = s.key.set k.toNat p k.isLt := rfl
@[simp] theorem State.setKey_ir (k : Nibble) (p : Bool) : (s.setKey k p).ir = s.ir := rfl
@[simp] theorem State.setKey_run (k : Nibble) (p : Bool) : (s.setKey k p).run = s.run := rfl
@[simp] theorem State.setKey_fault (k : Nibble) (p : Bool) : (s.setKey k p).fault = s.fault := rfl
@[simp] theorem State.setKey_started (k : Nibble) (p : Bool) : (s.setKey k p).started = s.started := rfl
@[simp] theorem State.setKey_draws (k : Nibble) (p : Bool) : (s.setKey k p).draws = s.draws := rfl
@[simp] theorem State.setKey_params (k : Nibble) (p : Bool) : (s.setKey k p).params = s.params := rfl
@[simp] theorem State.setKey_schedule (k : Nibble) (p : Bool) : (s.setKey k p).schedule = s.schedule := rfl
@[simp] theorem State.setKey_byteAt (k : Nibble) (p : Bool) (c : Nat) : (s.setKey k p).byteAt c = s.byteAt c := rfl
@[simp] theorem State.setKey_getV (k : Nibble) (p : Bool) (z : Nibble) : (s.setKey k p).getV z = s.getV z := rfl

/-! ## The register views -/

/-- A register reads what was written to it, and every other register as before. -/
@[simp] theorem State.setV_getV (x z : Nibble) (b : Byte) :
    (s.setV x b).getV z = if x = z then b else s.getV z := by
  simp only [State.getV, State.setV_v, Vector.getElem_set, BitVec.toNat_inj]

/-- VF reads the flag written to it, and every other register as before. -/
@[simp] theorem State.setVF_getV (z : Nibble) (b : Byte) :
    (s.setVF b).getV z = if 15 = z then b else s.getV z :=
  State.setV_getV s 15 z b

/-- Under `NONE` the state in which 8xy4 and 8xy5 compute is the state they start from. -/
theorem withAddSubFlag_none (f : Byte) (h : s.params.addSubFlag = .none) : withAddSubFlag s f = s := by
  simp [withAddSubFlag, h]

/-- Under `CARRY_BORROW` the flag is written first. -/
theorem withAddSubFlag_carryBorrow (f : Byte) (h : s.params.addSubFlag = .carryBorrow) :
    withAddSubFlag s f = s.setVF f := by
  simp [withAddSubFlag, h]

/-- Writing the flag of 8xy4 or 8xy5 changes the registers at most. -/
theorem withAddSubFlag_cases (f : Byte) :
    withAddSubFlag s f = s ∨ s.params.addSubFlag = .carryBorrow ∧ withAddSubFlag s f = s.setVF f := by
  cases h : s.params.addSubFlag
  · exact .inl (withAddSubFlag_none s f h)
  · exact .inr ⟨rfl, withAddSubFlag_carryBorrow s f h⟩

/-- A state is determined by its registers and the rest. -/
theorem State.setV_eq (x : Nibble) (b : Byte) : s.setV x b = { s with v := s.v.set x.toNat b x.isLt } := rfl

end Sys2Proof.Machine
end

