-- ==== Sys2Proof/Laws/Ops.lean ====
section
/-! SUPPORT. One lemma per shared operation that says everything it can do; proofs cite these and unfold nothing. -/

namespace Sys2Proof.Machine

/-! ## Blocks -/

/-- A block fits exactly when it is empty or its last byte lies in memory. -/
theorem spanFault_eq_none (base : Word) (n : Nat) :
    spanFault base n = none ↔ n = 0 ∨ base.toNat + n ≤ memSize := by
  unfold spanFault memSize
  split <;> simp <;> omega

/-- A block that does not fit raises `MemoryFault` at the lowest offending address. -/
theorem spanFault_eq_some (base : Word) (n : Nat) (h : 0 < n) (h' : memSize < base.toNat + n) :
    spanFault base n = some (.memoryFault (if base.toNat < 0x1000 then 0x1000 else base)) := by
  unfold memSize at h'
  exact if_pos ⟨h, by omega⟩

/-- A block instruction either goes on with its writes, its block being in memory, or enters the fault without any. -/
theorem nextInSpan_cases (n : Nat) (s t : State) :
    (n = 0 ∨ s.i.toNat + n ≤ memSize) ∧ nextInSpan n s t = .next (t.advance 2) ∨
    (0 < n ∧ memSize < s.i.toNat + n) ∧
      nextInSpan n s t = .next (s.raised (.memoryFault (if s.i.toNat < 0x1000 then 0x1000 else s.i))) := by
  by_cases h : n = 0 ∨ s.i.toNat + n ≤ memSize
  · left
    refine ⟨h, ?_⟩
    unfold nextInSpan
    rw [(spanFault_eq_none s.i n).mpr h]
    rfl
  · right
    have h1 : 0 < n ∧ memSize < s.i.toNat + n := by omega
    refine ⟨h1, ?_⟩
    unfold nextInSpan
    rw [spanFault_eq_some s.i n h1.1 h1.2]
    rfl

/-- A block instruction whose block is in memory goes on with its writes. -/
theorem nextInSpan_fits (n : Nat) (s t : State) (h : n = 0 ∨ s.i.toNat + n ≤ memSize) :
    nextInSpan n s t = .next (t.advance 2) := by
  rcases nextInSpan_cases n s t with h' | h'
  · exact h'.2
  · omega

/-- A block instruction whose block leaves memory enters the fault. -/
theorem nextInSpan_faults (n : Nat) (s t : State) (h : 0 < n) (h' : memSize < s.i.toNat + n) :
    nextInSpan n s t = .next (s.raised (.memoryFault (if s.i.toNat < 0x1000 then 0x1000 else s.i))) := by
  rcases nextInSpan_cases n s t with h'' | h''
  · omega
  · exact h''.2

/-! ## The stack -/

/-- A push onto a stack with a free slot. -/
theorem State.push_free (s : State) (w : Word) (h : s.sp.toNat < 16) :
    s.push w = some { s with stack := s.stack.set s.sp.toNat w h, sp := s.sp + 1 } := dif_pos h

/-- A push onto a full stack. -/
theorem State.push_full (s : State) (w : Word) (h : 16 ≤ s.sp.toNat) : s.push w = none := dif_neg (by omega)

/-- A pop from a stack with a live slot. -/
theorem State.pop_live (s : State) (h : 0 < s.sp.toNat) (h' : s.sp.toNat ≤ 16) :
    s.pop = some (s.stack[s.sp.toNat - 1]'(by omega), { s with sp := s.sp - 1 }) := dif_pos ⟨h, h'⟩

/-- A pop from an empty stack, or with a stack pointer that names no slot. -/
theorem State.pop_none (s : State) (h : s.sp.toNat = 0 ∨ 16 < s.sp.toNat) : s.pop = none := dif_neg (by omega)

/-! ## Registers -/

/-- Filling consecutive registers: the bytes' own registers hold them, every other as before. -/
theorem getElem_fillV (v : Vector Byte 16) (k : Nat) (bs : List Byte) (j : Nat) (hj : j < 16) :
    (fillV v k bs)[j] = if k ≤ j ∧ j < k + bs.length then bs[j - k]?.getD 0 else v[j] := by
  induction bs generalizing v k with
  | nil =>
    have : ¬ (k ≤ j ∧ j < k + ([] : List Byte).length) := by simp
    rw [if_neg this]; rfl
  | cons b bs ih =>
    rw [fillV, ih]
    by_cases hk : k = j
    · subst hk
      simp
    · by_cases h : k + 1 ≤ j ∧ j < k + 1 + bs.length
      · have h' : k ≤ j ∧ j < k + (b :: bs).length := by simp; omega
        have hi : j - k = (j - (k + 1)) + 1 := by omega
        rw [if_pos h, if_pos h', hi]
        simp
      · have h' : ¬ (k ≤ j ∧ j < k + (b :: bs).length) := by simp; omega
        rw [if_neg h, if_neg h']
        simp [hk]

/-- The first registers as a list, one by one. -/
theorem State.getElem?_firstV (s : State) (n k : Nat) (h : k < n) (hk : k < 16) :
    (s.firstV n)[k]? = some s.v[k] := by
  simp [State.firstV, h, hk]

/-- The number of registers listed. -/
theorem State.length_firstV (s : State) (n : Nat) (h : n ≤ 16) : (s.firstV n).length = n := by
  simp [State.firstV, h]

/-! ## Fetch -/

/-- A fetch inside memory reads the two bytes at `PC` and `PC + 1`, high byte first. -/
theorem fetch_inside (s : State) (h : s.pc.toNat ≤ 0xFFE) :
    fetch s = .ok (wordOfBytes (s.byteAt s.pc.toNat) (s.byteAt (s.pc.toNat + 1))) := by
  have h1 : (s.pc + 1).toNat = s.pc.toNat + 1 := by
    rw [BitVec.toNat_add]; simp; omega
  simp only [fetch, memRead, h1, if_pos (show s.pc.toNat ≤ 0xFFF by omega),
    if_pos (show s.pc.toNat + 1 ≤ 0xFFF by omega)]

/-- A fetch that leaves memory raises `MemoryFault` at the lowest address that does. -/
theorem fetch_beyond (s : State) (h : 0xFFE < s.pc.toNat) :
    fetch s = .error (.memoryFault (if s.pc.toNat < 0x1000 then 0x1000 else s.pc)) := by
  unfold fetch memRead
  by_cases h' : s.pc.toNat ≤ 0xFFF
  · have hp : s.pc = 0x0FFF := by
      apply BitVec.eq_of_toNat_eq
      simp; omega
    simp [hp]
  · simp only [if_neg h', if_neg (show ¬ s.pc.toNat < 0x1000 by omega)]

/-- What a fetch can do. -/
theorem fetch_cases (s : State) :
    (s.pc.toNat ≤ 0xFFE ∧ fetch s = .ok (wordOfBytes (s.byteAt s.pc.toNat) (s.byteAt (s.pc.toNat + 1)))) ∨
    (0xFFE < s.pc.toNat ∧ fetch s = .error (.memoryFault (if s.pc.toNat < 0x1000 then 0x1000 else s.pc))) := by
  by_cases h : s.pc.toNat ≤ 0xFFE
  · exact .inl ⟨h, fetch_inside s h⟩
  · exact .inr ⟨by omega, fetch_beyond s (by omega)⟩

/-! ## Agents -/

/-- What is left of an answer after going on: it was a next state, or it stops as before. -/
theorem andThen_eq_next (o : Result) (f : State → Result) (t : State) :
    andThen o f = .next t ↔ ∃ s, o = .next s ∧ f s = .next t := by
  cases o <;> simp [andThen]

/-- A batch of actions keeps what each action keeps. -/
theorem applyEvents_keeps (P : State → Prop)
    (hone : ∀ e s t, P s → applyEvent e s = .next t → P t) :
    ∀ es s t, P s → applyEvents es s = .next t → P t := by
  intro es
  induction es with
  | nil => intro s t hs h; cases h; exact hs
  | cons e es ih =>
    intro s t hs h
    obtain ⟨u, hu, ht⟩ := (andThen_eq_next _ _ _).mp h
    exact ih u t (hone e s u hs hu) ht

/-- What a load can do: write bytes that lie in memory, or stop the machine at load time. -/
theorem loadData_cases (offset : Nat) (bytes : List Byte) (s : State) :
    (∃ bs, (bs = [] ∨ offset + bs.length ≤ memSize) ∧ loadData offset bytes s = .next (s.setBytesFrom offset bs)) ∨
    (memSize < offset + bytes.length ∧ s.params.loadPolicy = .reject ∧
      loadData offset bytes s = .fault (.outOfBounds offset bytes.length)) := by
  unfold loadData
  split
  · next h => exact .inl ⟨bytes, .inr h, rfl⟩
  · next h =>
    cases hp : s.params.loadPolicy
    · exact .inr ⟨by omega, rfl, rfl⟩
    · refine .inl ⟨bytes.take (room offset), ?_, rfl⟩
      unfold room
      by_cases ho : memSize ≤ offset
      · left; simp [Nat.sub_eq_zero_of_le ho]
      · right; simp; omega

end Sys2Proof.Machine
end

