-- ==== Sys2Proof/Laws/Exec.lean ====
section
/-! SUPPORT. What an instruction can do, said once: enter a fault, start to wait for a key, or complete. -/

namespace Sys2Proof.Machine

/-- The state `t` after an instruction that completed in `s`: what no instruction changes, and the bounds that every
instruction keeps. -/
structure Completes (s t : State) : Prop where
  run       : t.run = s.run
  fault     : t.fault = s.fault
  ir        : t.ir = s.ir
  key       : t.key = s.key
  started   : t.started = s.started
  params    : t.params = s.params
  schedule  : t.schedule = s.schedule
  memWf     : Memory.wf s.params.font s.mem → Memory.wf s.params.font t.mem
  spBound   : s.sp.toNat ≤ 16 → t.sp.toNat ≤ 16
  slotBound : s.pc.toNat ≤ 0x0FFE → (∀ k : Fin 16, s.stack[k].toNat ≤ 0x0FFE) →
    ∀ k : Fin 16, t.stack[k].toNat ≤ 0x0FFE
  pcBound   : s.pc.toNat ≤ 0x0FFE → (∀ k : Fin 16, s.stack[k].toNat ≤ 0x0FFE) → t.pc.toNat ≤ 0x10FE

/-- What an instruction can do in a state: enter a fault, start to wait (Fx0A alone), or complete. -/
def Answers (i : Instr) (s t : State) : Prop :=
  (∃ f, t = s.raised f) ∨ (∃ x, i = .keyw x ∧ t = { s with run := .waitKey x }) ∨ Completes s t

/-- An instruction at a fetched address advances `PC` to at most 0x1002. -/
theorem pc_advance_bound (p k : Word) (hk : k.toNat ≤ 4) (hp : p.toNat ≤ 0x0FFE) : (p + k).toNat ≤ 0x10FE := by
  rw [BitVec.toNat_add]
  omega

/-- `next` completes where the written state differs in registers, `I`, display, timers or the draw counter. -/
theorem completes_next (s t : State) (hrun : t.run = s.run) (hfault : t.fault = s.fault) (hir : t.ir = s.ir)
    (hkey : t.key = s.key) (hstarted : t.started = s.started) (hparams : t.params = s.params)
    (hschedule : t.schedule = s.schedule) (hsp : t.sp = s.sp) (hstack : t.stack = s.stack) (hpc : t.pc = s.pc)
    (hmem : Memory.wf s.params.font s.mem → Memory.wf s.params.font t.mem) : Completes s (t.advance 2) where
  run := hrun
  fault := hfault
  ir := hir
  key := hkey
  started := hstarted
  params := hparams
  schedule := hschedule
  memWf := hmem
  spBound h := by simpa [hsp] using h
  slotBound _ hs := by simpa [hstack] using hs
  pcBound hp _ := by
    rw [State.advance_pc, hpc]
    exact pc_advance_bound _ _ (by decide) hp

/-- A skip completes. -/
theorem completes_skip (s : State) (c : Bool) : Completes s (s.advance (if c then 4 else 2)) where
  run := rfl
  fault := rfl
  ir := rfl
  key := rfl
  started := rfl
  params := rfl
  schedule := rfl
  memWf := id
  spBound := id
  slotBound _ hs := hs
  pcBound hp _ := pc_advance_bound _ _ (by cases c <;> decide) hp

/-- A jump completes where its target is at most 0x10FE. -/
theorem completes_jump (s : State) (a : Word) (ha : a.toNat ≤ 0x10FE) : Completes s (s.jumpTo a) where
  run := rfl
  fault := rfl
  ir := rfl
  key := rfl
  started := rfl
  params := rfl
  schedule := rfl
  memWf := id
  spBound := id
  slotBound _ hs := hs
  pcBound _ _ := ha

/-- A literal address is at most 0x0FFF. -/
theorem zextAddr_bound (nnn : Addr12) : (zextAddr nnn).toNat ≤ 0x10FE := by
  have h : (zextAddr nnn).toNat = nnn.toNat % 65536 := BitVec.toNat_setWidth 16 nnn
  have := nnn.isLt
  omega

/-- The largest target of Bnnn is 0x10FE (R23, R128). -/
theorem indexedTarget_bound (s : State) (nnn : Addr12) : (indexedTarget s nnn).toNat ≤ 0x10FE := by
  have h1 : (zextAddr nnn).toNat = nnn.toNat % 65536 := BitVec.toNat_setWidth 16 nnn
  have h2 : (zextByte (s.getV 0)).toNat = (s.getV 0).toNat % 65536 := BitVec.toNat_setWidth 16 _
  have := nnn.isLt
  have := (s.getV 0).isLt
  rw [indexedTarget, BitVec.toNat_add]
  omega

/-- A block instruction completes or enters the fault. -/
theorem nextInSpan_answers (i : Instr) (n : Nat) (s t : State)
    (h : (n = 0 ∨ s.i.toNat + n ≤ memSize) → Completes s (t.advance 2)) :
    ∃ u, nextInSpan n s t = .next u ∧ Answers i s u := by
  rcases nextInSpan_cases n s t with hc | hc
  · exact ⟨_, hc.2, .inr (.inr (h hc.1))⟩
  · exact ⟨_, hc.2, .inl ⟨_, rfl⟩⟩

/-- 2nnn completes or enters the fault. -/
theorem execCall_answers (nnn : Addr12) (s : State) : ∃ t, execCall nnn s = .next t ∧ Answers (.call nnn) s t := by
  unfold execCall
  by_cases h : s.sp.toNat < 16
  · rw [State.push_free s s.pc h]
    refine ⟨_, rfl, .inr (.inr ?_)⟩
    refine { run := rfl, fault := rfl, ir := rfl, key := rfl, started := rfl, params := rfl, schedule := rfl,
             memWf := id, spBound := fun _ => ?_, slotBound := fun hp hs k => ?_, pcBound := fun _ _ => zextAddr_bound nnn }
    · show (s.sp + 1).toNat ≤ 16
      rw [BitVec.toNat_add]
      simp
      omega
    · show (s.stack.set s.sp.toNat s.pc h)[k.val].toNat ≤ 0x0FFE
      rw [Vector.getElem_set]
      split
      · exact hp
      · exact hs k
  · rw [State.push_full s s.pc (by omega)]
    exact ⟨_, rfl, .inl ⟨_, rfl⟩⟩

/-- 00EE completes or enters the fault. -/
theorem execRet_answers (s : State) : ∃ t, execRet s = .next t ∧ Answers .ret s t := by
  unfold execRet
  by_cases h : 0 < s.sp.toNat ∧ s.sp.toNat ≤ 16
  · rw [State.pop_live s h.1 h.2]
    refine ⟨_, rfl, .inr (.inr ?_)⟩
    refine { run := rfl, fault := rfl, ir := rfl, key := rfl, started := rfl, params := rfl, schedule := rfl,
             memWf := id, spBound := fun _ => ?_, slotBound := fun _ hs => hs, pcBound := fun _ hs => ?_ }
    · show (s.sp - 1).toNat ≤ 16
      rw [BitVec.toNat_sub]
      simp
      omega
    · exact pc_advance_bound _ _ (by decide) (hs ⟨s.sp.toNat - 1, by omega⟩)
  · rw [State.pop_none s (by omega)]
    exact ⟨_, rfl, .inl ⟨_, rfl⟩⟩

/-- A key skip completes or enters the fault. -/
theorem keySkip_answers (i : Instr) (s : State) (f : CoreFault) (o : Option Bool) (c : Bool → Bool) :
    ∃ t, (match o with | some p => skipIf (c p) s | none => raise f s) = .next t ∧ Answers i s t := by
  cases o with
  | none => exact ⟨_, rfl, .inl ⟨_, rfl⟩⟩
  | some p => exact ⟨_, rfl, .inr (.inr (completes_skip s (c p)))⟩

/-- Every instruction answers a next state, in which it entered a fault, waits, or completed. -/
theorem exec_answers (i : Instr) (s : State) : ∃ t, exec i s = .next t ∧ Answers i s t := by
  cases i
  case call nnn => exact execCall_answers nnn s
  case ret => exact execRet_answers s
  case keyw x => exact ⟨_, rfl, .inr (.inl ⟨x, rfl, rfl⟩)⟩
  case jp nnn => exact ⟨_, rfl, .inr (.inr (completes_jump s _ (zextAddr_bound nnn)))⟩
  case jp0 nnn => exact ⟨_, rfl, .inr (.inr (completes_jump s _ (indexedTarget_bound s nnn)))⟩
  case sei x nn => exact ⟨_, rfl, .inr (.inr (completes_skip s _))⟩
  case snei x nn => exact ⟨_, rfl, .inr (.inr (completes_skip s _))⟩
  case se x y => exact ⟨_, rfl, .inr (.inr (completes_skip s _))⟩
  case sne x y => exact ⟨_, rfl, .inr (.inr (completes_skip s _))⟩
  case skp x => exact keySkip_answers _ s (.keyIndexFault (s.getV x)) (keyNamed s (s.getV x)) id
  case sknp x => exact keySkip_answers _ s (.keyIndexFault (s.getV x)) (keyNamed s (s.getV x)) (!·)
  case bcd x =>
    refine nextInSpan_answers _ 3 s _ fun h => completes_next s _ rfl rfl rfl rfl rfl rfl rfl rfl rfl rfl fun hw => ?_
    exact Memory.wf_writeFrom _ _ _ _ (by simp only [decimalDigits, List.length_cons, List.length_nil]; omega) hw
  case stm x =>
    refine nextInSpan_answers _ (blockLength x) s _ fun h =>
      completes_next s _ rfl rfl rfl rfl rfl rfl rfl rfl rfl rfl fun hw => ?_
    have hx := x.isLt
    have hb : blockLength x = x.toNat + 1 := rfl
    exact Memory.wf_writeFrom _ _ _ _ (by rw [State.length_firstV s _ (by omega)]; omega) hw
  case ldm x =>
    exact nextInSpan_answers _ (blockLength x) s _ fun _ =>
      completes_next s _ rfl rfl rfl rfl rfl rfl rfl rfl rfl rfl id
  case drw x y n =>
    exact nextInSpan_answers _ n.toNat s _ fun _ => completes_next s _ rfl rfl rfl rfl rfl rfl rfl rfl rfl rfl id
  case add x y =>
    refine ⟨_, rfl, .inr (.inr ?_)⟩
    rcases withAddSubFlag_cases s (addFlag (s.getV x) (s.getV y)) with e | ⟨-, e⟩ <;> rw [e] <;>
      exact completes_next s _ rfl rfl rfl rfl rfl rfl rfl rfl rfl rfl id
  case sub x y =>
    refine ⟨_, rfl, .inr (.inr ?_)⟩
    rcases withAddSubFlag_cases s (subFlag (s.getV x) (s.getV y)) with e | ⟨-, e⟩ <;> rw [e] <;>
      exact completes_next s _ rfl rfl rfl rfl rfl rfl rfl rfl rfl rfl id
  all_goals exact ⟨_, rfl, .inr (.inr (completes_next s _ rfl rfl rfl rfl rfl rfl rfl rfl rfl rfl id))⟩

/-- The inversion of `exec`: an answer is a next state of one of the three kinds. -/
theorem answers_of_exec {i : Instr} {s t : State} (h : exec i s = .next t) : Answers i s t := by
  obtain ⟨u, hu, ha⟩ := exec_answers i s
  rw [hu] at h
  cases h
  exact ha

end Sys2Proof.Machine
end

