-- ==== Sys2Proof/Laws/PerInstr.lean ====
section
/-! SUPPORT. The family EncodesItsRow, one lemma per instruction: it is well formed, its row is in the opcode map, and
its word matches that row (30_encoding R92, R94, R97). -/

namespace Sys2Proof

/-- A register number fits its field. -/
theorem fitsNibble_toNat (x : Nibble) : fitsNibble x.toNat = true := decide_eq_true x.isLt

/-- A byte fits its field. -/
theorem fitsByte_toNat (nn : Byte) : fitsByte nn.toNat = true := decide_eq_true nn.isLt

/-- An address fits its field. -/
theorem fitsAddr_toNat (nnn : Addr12) : fitsAddr nnn.toNat = true := decide_eq_true nnn.isLt

end Sys2Proof

namespace Sys2Proof.Laws.EncodesItsRow

/-- The instruction's operands fit their fields, its row is one of the 34, and its word is of that row. -/
def Statement (i : Instr) : Prop :=
  i.wellFormed = true ∧ i.row ∈ opcodeRows ∧ encode i &&& i.row.2 = i.row.1

theorem cls : Statement (.cls) :=
  ⟨rfl, by simp [Instr.row, opcodeRows], by decide⟩

theorem ret : Statement (.ret) :=
  ⟨rfl, by simp [Instr.row, opcodeRows], by decide⟩

theorem jp (nnn : Addr12) : Statement (.jp nnn) :=
  ⟨by simp [Instr.wellFormed, fitsAddr_toNat], by simp [Instr.row, opcodeRows], (encAddr_masked _ _).trans rfl⟩

theorem call (nnn : Addr12) : Statement (.call nnn) :=
  ⟨by simp [Instr.wellFormed, fitsAddr_toNat], by simp [Instr.row, opcodeRows], (encAddr_masked _ _).trans rfl⟩

theorem sei (x : Nibble) (nn : Byte) : Statement (.sei x nn) :=
  ⟨by simp [Instr.wellFormed, fitsByte_toNat, fitsNibble_toNat], by simp [Instr.row, opcodeRows], (encRegImm_masked _ _ _).trans rfl⟩

theorem snei (x : Nibble) (nn : Byte) : Statement (.snei x nn) :=
  ⟨by simp [Instr.wellFormed, fitsByte_toNat, fitsNibble_toNat], by simp [Instr.row, opcodeRows], (encRegImm_masked _ _ _).trans rfl⟩

theorem se (x y : Nibble) : Statement (.se x y) :=
  ⟨by simp [Instr.wellFormed, fitsNibble_toNat], by simp [Instr.row, opcodeRows], (encRegReg_masked_code _ _ _ _).trans rfl⟩

theorem ldi (x : Nibble) (nn : Byte) : Statement (.ldi x nn) :=
  ⟨by simp [Instr.wellFormed, fitsByte_toNat, fitsNibble_toNat], by simp [Instr.row, opcodeRows], (encRegImm_masked _ _ _).trans rfl⟩

theorem addi (x : Nibble) (nn : Byte) : Statement (.addi x nn) :=
  ⟨by simp [Instr.wellFormed, fitsByte_toNat, fitsNibble_toNat], by simp [Instr.row, opcodeRows], (encRegImm_masked _ _ _).trans rfl⟩

theorem mov (x y : Nibble) : Statement (.mov x y) :=
  ⟨by simp [Instr.wellFormed, fitsNibble_toNat], by simp [Instr.row, opcodeRows], (encRegReg_masked_code _ _ _ _).trans rfl⟩

theorem or (x y : Nibble) : Statement (.or x y) :=
  ⟨by simp [Instr.wellFormed, fitsNibble_toNat], by simp [Instr.row, opcodeRows], (encRegReg_masked_code _ _ _ _).trans rfl⟩

theorem and (x y : Nibble) : Statement (.and x y) :=
  ⟨by simp [Instr.wellFormed, fitsNibble_toNat], by simp [Instr.row, opcodeRows], (encRegReg_masked_code _ _ _ _).trans rfl⟩

theorem xor (x y : Nibble) : Statement (.xor x y) :=
  ⟨by simp [Instr.wellFormed, fitsNibble_toNat], by simp [Instr.row, opcodeRows], (encRegReg_masked_code _ _ _ _).trans rfl⟩

theorem add (x y : Nibble) : Statement (.add x y) :=
  ⟨by simp [Instr.wellFormed, fitsNibble_toNat], by simp [Instr.row, opcodeRows], (encRegReg_masked_code _ _ _ _).trans rfl⟩

theorem sub (x y : Nibble) : Statement (.sub x y) :=
  ⟨by simp [Instr.wellFormed, fitsNibble_toNat], by simp [Instr.row, opcodeRows], (encRegReg_masked_code _ _ _ _).trans rfl⟩

theorem shr (x y : Nibble) : Statement (.shr x y) :=
  ⟨by simp [Instr.wellFormed, fitsNibble_toNat], by simp [Instr.row, opcodeRows], (encRegReg_masked_code _ _ _ _).trans rfl⟩

theorem subn (x y : Nibble) : Statement (.subn x y) :=
  ⟨by simp [Instr.wellFormed, fitsNibble_toNat], by simp [Instr.row, opcodeRows], (encRegReg_masked_code _ _ _ _).trans rfl⟩

theorem shl (x y : Nibble) : Statement (.shl x y) :=
  ⟨by simp [Instr.wellFormed, fitsNibble_toNat], by simp [Instr.row, opcodeRows], (encRegReg_masked_code _ _ _ _).trans rfl⟩

theorem sne (x y : Nibble) : Statement (.sne x y) :=
  ⟨by simp [Instr.wellFormed, fitsNibble_toNat], by simp [Instr.row, opcodeRows], (encRegReg_masked_code _ _ _ _).trans rfl⟩

theorem ldix (nnn : Addr12) : Statement (.ldix nnn) :=
  ⟨by simp [Instr.wellFormed, fitsAddr_toNat], by simp [Instr.row, opcodeRows], (encAddr_masked _ _).trans rfl⟩

theorem jp0 (nnn : Addr12) : Statement (.jp0 nnn) :=
  ⟨by simp [Instr.wellFormed, fitsAddr_toNat], by simp [Instr.row, opcodeRows], (encAddr_masked _ _).trans rfl⟩

theorem rnd (x : Nibble) (nn : Byte) : Statement (.rnd x nn) :=
  ⟨by simp [Instr.wellFormed, fitsByte_toNat, fitsNibble_toNat], by simp [Instr.row, opcodeRows], (encRegImm_masked _ _ _).trans rfl⟩

theorem drw (x y n : Nibble) : Statement (.drw x y n) :=
  ⟨by simp [Instr.wellFormed, fitsNibble_toNat], by simp [Instr.row, opcodeRows], (encRegReg_masked _ _ _ _).trans rfl⟩

theorem skp (x : Nibble) : Statement (.skp x) :=
  ⟨by simp [Instr.wellFormed, fitsNibble_toNat], by simp [Instr.row, opcodeRows], (encRegFn_masked _ _).trans rfl⟩

theorem sknp (x : Nibble) : Statement (.sknp x) :=
  ⟨by simp [Instr.wellFormed, fitsNibble_toNat], by simp [Instr.row, opcodeRows], (encRegFn_masked _ _).trans rfl⟩

theorem gdt (x : Nibble) : Statement (.gdt x) :=
  ⟨by simp [Instr.wellFormed, fitsNibble_toNat], by simp [Instr.row, opcodeRows], (encRegFn_masked _ _).trans rfl⟩

theorem keyw (x : Nibble) : Statement (.keyw x) :=
  ⟨by simp [Instr.wellFormed, fitsNibble_toNat], by simp [Instr.row, opcodeRows], (encRegFn_masked _ _).trans rfl⟩

theorem sdt (x : Nibble) : Statement (.sdt x) :=
  ⟨by simp [Instr.wellFormed, fitsNibble_toNat], by simp [Instr.row, opcodeRows], (encRegFn_masked _ _).trans rfl⟩

theorem sst (x : Nibble) : Statement (.sst x) :=
  ⟨by simp [Instr.wellFormed, fitsNibble_toNat], by simp [Instr.row, opcodeRows], (encRegFn_masked _ _).trans rfl⟩

theorem addix (x : Nibble) : Statement (.addix x) :=
  ⟨by simp [Instr.wellFormed, fitsNibble_toNat], by simp [Instr.row, opcodeRows], (encRegFn_masked _ _).trans rfl⟩

theorem font (x : Nibble) : Statement (.font x) :=
  ⟨by simp [Instr.wellFormed, fitsNibble_toNat], by simp [Instr.row, opcodeRows], (encRegFn_masked _ _).trans rfl⟩

theorem bcd (x : Nibble) : Statement (.bcd x) :=
  ⟨by simp [Instr.wellFormed, fitsNibble_toNat], by simp [Instr.row, opcodeRows], (encRegFn_masked _ _).trans rfl⟩

theorem stm (x : Nibble) : Statement (.stm x) :=
  ⟨by simp [Instr.wellFormed, fitsNibble_toNat], by simp [Instr.row, opcodeRows], (encRegFn_masked _ _).trans rfl⟩

theorem ldm (x : Nibble) : Statement (.ldm x) :=
  ⟨by simp [Instr.wellFormed, fitsNibble_toNat], by simp [Instr.row, opcodeRows], (encRegFn_masked _ _).trans rfl⟩

end Sys2Proof.Laws.EncodesItsRow
end

