-- ==== Sys2Proof/Laws/Step.lean ====
section
/-! SUPPORT. What a cycle, a step request and a step can do, said once, and the step on a placed instruction. -/

namespace Sys2Proof.Machine

/-- A word is put together from its high and its low byte (R63). -/
theorem wordOfBytes_halves (w : Word) : wordOfBytes (w.extractLsb' 8 8) (w.extractLsb' 0 8) = w := by
  unfold wordOfBytes
  ext k hk
  rw [BitVec.getElem_append]
  split
  · simp [BitVec.getLsbD_eq_getElem hk]
  · simp [show 8 + (k - 8) = k by omega, BitVec.getLsbD_eq_getElem hk]

/-- A legal word is the instruction that it decodes to. -/
theorem decodeAndExecute_ok {w : Word} {i : Instr} (h : decodeWord w = .ok i) (s : State) :
    decodeAndExecute w s = exec i { s with ir := w } := by
  unfold decodeAndExecute
  rw [h]

/-- Decode and execute, said once: an instruction of the word, or the fault of an illegal word; either way a next
state. -/
theorem decodeAndExecute_answers (w : Word) (s : State) :
    (∃ i t, decodeWord w = .ok i ∧ decodeAndExecute w s = .next t ∧ Answers i { s with ir := w } t) ∨
    decodeAndExecute w s = .next (({ s with ir := w } : State).raised (.unknownInstruction w (opField w))) := by
  cases h : decodeWord w with
  | ok i =>
    obtain ⟨t, ht, ha⟩ := exec_answers i { s with ir := w }
    exact .inl ⟨i, t, rfl, (decodeAndExecute_ok h s).trans ht, ha⟩
  | error e =>
    right
    unfold decodeAndExecute
    rw [h]
    rfl

/-- A cycle, said once: a fetch fault, the fault of an illegal word, or an instruction fetched inside memory. -/
theorem cycle_answers (s : State) : ∃ t, cycle s = .next t ∧
    ((∃ f r, t = ({ s with ir := r } : State).raised f) ∨
      (s.pc.toNat ≤ 0xFFE ∧ ∃ i w, Answers i { s with ir := w } t)) := by
  unfold cycle
  rcases fetch_cases s with ⟨hp, hf⟩ | ⟨hp, hf⟩ <;> rw [hf]
  · rcases decodeAndExecute_answers (wordOfBytes (s.byteAt s.pc.toNat) (s.byteAt (s.pc.toNat + 1))) s with
      ⟨i, t, -, ht, ha⟩ | ht
    · exact ⟨t, ht, .inr ⟨hp, i, _, ha⟩⟩
    · exact ⟨_, ht, .inl ⟨_, _, rfl⟩⟩
  · exact ⟨_, rfl, .inl ⟨_, s.ir, rfl⟩⟩

/-- A step request, said once: a cycle when the core runs, nothing otherwise. -/
theorem stepRequest_cases (s : State) :
    (s.run = .running ∧ stepRequest s = cycle { s with started := true }) ∨
    (s.run ≠ .running ∧ stepRequest s = .next s) := by
  cases h : s.run with
  | running => exact .inl ⟨rfl, by unfold stepRequest; rw [h]⟩
  | waitKey x => exact .inr ⟨by simp, by unfold stepRequest; rw [h]⟩
  | halted c => exact .inr ⟨by simp, by unfold stepRequest; rw [h]⟩

/-- The inversion of `step`: the agents acted, and then the step request was taken. -/
theorem step_eq_next (s t : State) : step s = .next t ↔ ∃ u, agentsAct s = .next u ∧ stepRequest u = .next t :=
  andThen_eq_next _ _ _

/-- What the agents keep: whatever taking a batch off the schedule keeps and each action keeps. -/
theorem agentsAct_keeps (P : State → Prop) (hone : ∀ e s t, P s → applyEvent e s = .next t → P t)
    (htake : ∀ s later, P s → P { s with schedule := later }) (s t : State) (hs : P s)
    (h : agentsAct s = .next t) : P t := by
  unfold agentsAct at h
  cases hq : s.schedule with
  | nil =>
    rw [hq] at h
    cases h
    exact hs
  | cons batch later =>
    rw [hq] at h
    exact applyEvents_keeps P hone batch _ t (htake s later hs) h

/-- A step on a placed instruction of the opcode table, inside memory, decodes and executes its word. -/
theorem step_withFetchWord (s : State) (w : Nat) (h : s.pc.toNat ≤ 0xFFE) :
    step (s.withFetchWord 16 w) =
      decodeAndExecute (BitVec.ofNat 16 w)
        { s.setBytesFrom s.pc.toNat (tableBytes 16 w) with run := .running, fault := none, started := true } := by
  have hlen : s.pc.toNat + (tableBytes 16 w).length ≤ memSize := by
    simp only [tableBytes, bytesOfWord, List.length_cons, List.length_nil, memSize]
    omega
  let p : State := { s.setBytesFrom s.pc.toNat (tableBytes 16 w) with run := .running, fault := none }
  have hact : agentsAct (s.withFetchWord 16 w) = .next p := by
    unfold agentsAct State.withFetchWord placeAtPc
    rw [if_pos hlen]
    by_cases hq : s.schedule = []
    · rw [if_pos hq]
      simp only [p]
      rw [State.setBytesFrom_schedule, hq]
    · rw [if_neg hq]
      rfl
  have hword : wordOfBytes (p.byteAt s.pc.toNat) (p.byteAt (s.pc.toNat + 1)) = BitVec.ofNat 16 w := by
    have hb : ∀ a, p.byteAt a = (s.setBytesFrom s.pc.toNat (tableBytes 16 w)).byteAt a := fun _ => rfl
    rw [hb, hb, State.setBytesFrom_byteAt, State.setBytesFrom_byteAt]
    have hmod : BitVec.ofNat 16 (w % 2 ^ 16) = BitVec.ofNat 16 w := by
      apply BitVec.eq_of_toNat_eq
      simp
    have hhalves := wordOfBytes_halves (BitVec.ofNat 16 w)
    unfold tableBytes
    rw [hmod]
    simpa [bytesOfWord] using hhalves
  show andThen (agentsAct (s.withFetchWord 16 w)) stepRequest = _
  rw [hact]
  show cycle { p with started := true } = _
  unfold cycle
  rw [fetch_inside _ (by exact h)]
  show decodeAndExecute (wordOfBytes (p.byteAt s.pc.toNat) (p.byteAt (s.pc.toNat + 1))) _ = _
  rw [hword]

end Sys2Proof.Machine
end

