-- ==== Sys2Proof/Tests/Slice0.lean ====
section
/-! SUPPORT. The model's own tests: what the well-formedness checks refuse, each instruction's word written out from
the spec's encoding (R93, R97), single steps with the spec's expected results (95_test_vectors), and, for each
statement that has hypotheses, a witness that meets them. -/

namespace Sys2Proof.Tests

open Sys2Proof Sys2Proof.Machine

/-! ## Well-formedness (R92, R95, R98; the illegal words are those of 95 table 2.6) -/

theorem test_fitsNibble_refuses_16 : fitsNibble 16 = false := by decide
theorem test_fitsByte_refuses_256 : fitsByte 256 = false := by decide
theorem test_fitsAddr_refuses_4096 : fitsAddr 4096 = false := by decide
theorem test_fits_accepts_largest : (fitsNibble 15 && fitsByte 255 && fitsAddr 4095) = true := by decide
theorem test_wellFormed_accepts_largest : (Instr.drw 15 15 15).wellFormed = true := by decide
theorem test_legalWord_refuses :
    [0x0000, 0x00E1, 0x00FE, 0x01E0, 0x0123, 0x5121, 0x8018, 0x812D, 0x812F, 0x912F, 0xE19F, 0xE000, 0xF000, 0xF175,
      0xF1FF].all (fun w => !legalWord w) = true := by decide
theorem test_legalWord_accepts :
    [0x00E0, 0x00EE, 0x5FF0, 0x8FFE, 0x8007, 0x9000, 0xEF9E, 0xE0A1, 0xFF65, 0xF007, 0xD000, 0xDFFF, 0x1000, 0xBFFF,
      0xCFFF].all legalWord = true := by decide

/-! ## Decoding: one word of each instruction, bit by bit -/

theorem test_decode_cls : decodeWord 0b0000000011100000 = .ok .cls := by decide
theorem test_decode_ret : decodeWord 0b0000000011101110 = .ok .ret := by decide
theorem test_decode_jp : decodeWord 0b0001101010111100 = .ok (.jp 0xABC) := by decide
theorem test_decode_call : decodeWord 0b0010001000001010 = .ok (.call 0x20A) := by decide
theorem test_decode_sei : decodeWord 0b0011010100101010 = .ok (.sei 0x5 0x2A) := by decide
theorem test_decode_snei : decodeWord 0b0100010100101010 = .ok (.snei 0x5 0x2A) := by decide
theorem test_decode_se : decodeWord 0b0101000100100000 = .ok (.se 0x1 0x2) := by decide
theorem test_decode_ldi : decodeWord 0b0110101000111100 = .ok (.ldi 0xA 0x3C) := by decide
theorem test_decode_addi : decodeWord 0b0111000100100000 = .ok (.addi 0x1 0x20) := by decide
theorem test_decode_mov : decodeWord 0b1000000100100000 = .ok (.mov 0x1 0x2) := by decide
theorem test_decode_or : decodeWord 0b1000000100100001 = .ok (.or 0x1 0x2) := by decide
theorem test_decode_and : decodeWord 0b1000000100100010 = .ok (.and 0x1 0x2) := by decide
theorem test_decode_xor : decodeWord 0b1000000100100011 = .ok (.xor 0x1 0x2) := by decide
theorem test_decode_add : decodeWord 0b1000000100100100 = .ok (.add 0x1 0x2) := by decide
theorem test_decode_sub : decodeWord 0b1000000100100101 = .ok (.sub 0x1 0x2) := by decide
theorem test_decode_shr : decodeWord 0b1000000000010110 = .ok (.shr 0x0 0x1) := by decide
theorem test_decode_subn : decodeWord 0b1000010000010111 = .ok (.subn 0x4 0x1) := by decide
theorem test_decode_shl : decodeWord 0b1000001100011110 = .ok (.shl 0x3 0x1) := by decide
theorem test_decode_sne : decodeWord 0b1001000100100000 = .ok (.sne 0x1 0x2) := by decide
theorem test_decode_ldix : decodeWord 0b1010001011110000 = .ok (.ldix 0x2F0) := by decide
theorem test_decode_jp0 : decodeWord 0b1011001011110000 = .ok (.jp0 0x2F0) := by decide
theorem test_decode_rnd : decodeWord 0b1100000100001111 = .ok (.rnd 0x1 0x0F) := by decide
theorem test_decode_drw : decodeWord 0b1101000000010010 = .ok (.drw 0x0 0x1 0x2) := by decide
theorem test_decode_skp : decodeWord 0b1110001010011110 = .ok (.skp 0x2) := by decide
theorem test_decode_sknp : decodeWord 0b1110001010100001 = .ok (.sknp 0x2) := by decide
theorem test_decode_gdt : decodeWord 0b1111010100000111 = .ok (.gdt 0x5) := by decide
theorem test_decode_keyw : decodeWord 0b1111001100001010 = .ok (.keyw 0x3) := by decide
theorem test_decode_sdt : decodeWord 0b1111010100010101 = .ok (.sdt 0x5) := by decide
theorem test_decode_sst : decodeWord 0b1111010100011000 = .ok (.sst 0x5) := by decide
theorem test_decode_addix : decodeWord 0b1111001000011110 = .ok (.addix 0x2) := by decide
theorem test_decode_font : decodeWord 0b1111001100101001 = .ok (.font 0x3) := by decide
theorem test_decode_bcd : decodeWord 0b1111000000110011 = .ok (.bcd 0x0) := by decide
theorem test_decode_stm : decodeWord 0b1111001001010101 = .ok (.stm 0x2) := by decide
theorem test_decode_ldm : decodeWord 0b1111001001100101 = .ok (.ldm 0x2) := by decide

theorem test_decode_refuses_by_name : decodeWord 0x8018 = .error (.unknownInstruction 0x8018 0x8) := by decide
theorem test_decodeBytes_leaves_rest : decodeBytes [0xA2, 0xF0, 0x12] = .ok (.ldix 0x2F0, [0x12]) := by decide
theorem test_decodeBytes_truncated : decodeBytes [0xA2] = .error .truncated := by decide
theorem test_decodeTableWord : decodeTableWord 16 0xD012 = some (.drw 0 1 2) := by decide
/-- `match | (x << 8) | (y << 4) | literal` (R102). -/
theorem test_encode_drw : encode (.drw 0xA 0x5 0xF) = 0xDA5F := by decide

/-! ## Single steps: word, state before, and what 95_test_vectors expects after

A vector starts from the reset state with `PC` 0x300 and the word placed there. -/

/-- The reset state at `PC` 0x300. -/
def at300 : State := { State.reset with pc := 0x300 }

/-- Registers given values, one after the other. -/
def withV (s : State) (rs : List (Nibble × Byte)) : State := rs.foldl (fun s r => s.setV r.1 r.2) s

/-- The same machine under the other setting of `ADDSUB_FLAG`. -/
def carryBorrow (s : State) : State := { s with params := { s.params with addSubFlag := .carryBorrow } }

/-- One step on a word placed at `PC`. -/
def ran (w : Nat) (s : State) : State :=
  match step (s.withFetchWord 16 w) with
  | .next t => t
  | .fault _ => s
  | .refused _ => s

/-- One action of an agent. -/
def acted (e : Event) (s : State) : State :=
  match applyEvent e s with
  | .next t => t
  | .fault _ => s
  | .refused _ => s

theorem test_cls :
    (ran 0x00E0 { at300 with disp := Vector.replicate 32 (-1) }).disp = Vector.replicate 32 0 := by decide
theorem test_ret_resumes :
    let s := ran 0x00EE { at300 with sp := 1, stack := at300.stack.set 0 0x0204 }
    (s.sp, s.pc, s.stack[0]) = (0, 0x0206, 0x0204) := by decide
theorem test_ret_underflow :
    let s := ran 0x00EE at300
    (s.run, s.pc, s.fault) =
      (.halted .stackUnderflow, 0x300, some { datum := .stackUnderflow 0x00EE, pc := 0x300, ir := 0x00EE }) := by decide
theorem test_jp :
    (ran 0x1ABC at300).pc = 0x0ABC := by decide
theorem test_call_last_slot :
    let s := ran 0x2400 { at300 with sp := 15 }
    (s.stack[15], s.sp, s.pc) = (0x0300, 16, 0x0400) := by decide
theorem test_call_overflow :
    let s := ran 0x2400 { at300 with sp := 16 }
    (s.run, s.sp, s.pc, s.fault.map (·.datum)) = (.halted .stackOverflow, 16, 0x300, some (.stackOverflow 0x2400)) := by decide
theorem test_sei :
    ((ran 0x352A (withV at300 [(5, 0x2A)])).pc, (ran 0x352A (withV at300 [(5, 0x2B)])).pc) = (0x0304, 0x0302) := by decide
theorem test_snei :
    ((ran 0x452A (withV at300 [(5, 0x2A)])).pc, (ran 0x452A (withV at300 [(5, 0x2B)])).pc) = (0x0302, 0x0304) := by decide
theorem test_se :
    ((ran 0x5120 (withV at300 [(1, 9), (2, 9)])).pc, (ran 0x5120 (withV at300 [(1, 9), (2, 8)])).pc) = (0x0304, 0x0302) := by decide
theorem test_sne :
    ((ran 0x9120 (withV at300 [(1, 9), (2, 9)])).pc, (ran 0x9120 (withV at300 [(1, 9), (2, 8)])).pc) = (0x0302, 0x0304) := by decide
theorem test_jp0_leaves_memory :
    (ran 0xBFFF (withV at300 [(0, 0xFF)])).pc = 0x10FE := by decide
theorem test_ldi :
    (ran 0x6A3C at300).getV 0xA = 0x3C := by decide
theorem test_addi_wraps :
    let s := ran 0x7101 (withV at300 [(1, 0xFF), (15, 0x33)])
    (s.getV 1, s.getV 15) = (0x00, 0x33) := by decide
theorem test_mov :
    (ran 0x8120 (withV at300 [(2, 0x55)])).getV 1 = 0x55 := by decide
theorem test_or_keeps_flag :
    let s := ran 0x8121 (withV at300 [(1, 0xF0), (2, 0x0F), (15, 0x33)])
    (s.getV 1, s.getV 15) = (0xFF, 0x33) := by decide
theorem test_and :
    (ran 0x8122 (withV at300 [(1, 0xF3), (2, 0x3F)])).getV 1 = 0x33 := by decide
theorem test_xor :
    (ran 0x8123 (withV at300 [(1, 0xFF), (2, 0x0F)])).getV 1 = 0xF0 := by decide
theorem test_add_none :
    let s := ran 0x8124 (withV at300 [(1, 0xF0), (2, 0x20), (15, 0x77)])
    (s.getV 1, s.getV 15) = (0x10, 0x77) := by decide
theorem test_add_carry_aliased :
    let s := ran 0x81F4 (carryBorrow (withV at300 [(1, 0xFF), (15, 0x03)]))
    (s.getV 1, s.getV 15) = (0x00, 0x01) := by decide
theorem test_sub_none :
    let s := ran 0x8125 (withV at300 [(1, 0x10), (2, 0x20), (15, 0x77)])
    (s.getV 1, s.getV 15) = (0xF0, 0x77) := by decide
theorem test_sub_borrow_aliased :
    (ran 0x8F15 (carryBorrow (withV at300 [(1, 0x02), (15, 0x10)]))).getV 15 = 0xFF := by decide
theorem test_shr_writes_both :
    let s := ran 0x8016 (withV at300 [(0, 0xAA), (1, 0x0B)])
    (s.getV 15, s.getV 1, s.getV 0) = (0x01, 0x05, 0x05) := by decide
theorem test_shr_flag_source :
    let s := ran 0x81F6 (withV at300 [(1, 0x33), (15, 0xFF)])
    (s.getV 15, s.getV 1) = (0x00, 0x00) := by decide
theorem test_subn_strict :
    let s := ran 0x8127 (withV at300 [(1, 0x40), (2, 0x40), (15, 0x09)])
    (s.getV 15, s.getV 1) = (0x00, 0x00) := by decide
theorem test_subn_flag_source :
    let s := ran 0x81F7 (withV at300 [(1, 0x03), (15, 0x10)])
    (s.getV 15, s.getV 1) = (0x01, 0xFE) := by decide
theorem test_shl_flag_is_bit_three :
    let s := ran 0x801E (withV at300 [(1, 0xFF)])
    (s.getV 15, s.getV 1, s.getV 0) = (0x08, 0xFE, 0xFE) := by decide
theorem test_shl_flag_destination :
    let s := ran 0x8F1E (withV at300 [(1, 0x4C)])
    (s.getV 1, s.getV 15) = (0x98, 0x98) := by decide
theorem test_ldix :
    (ran 0xAFFF at300).i = 0x0FFF := by decide
theorem test_addix_wraps :
    (ran 0xF21E { withV at300 [(2, 0x02)] with i := 0xFFFF }).i = 0x0001 := by decide
theorem test_addix_leaves_memory :
    let s := ran 0xF21E { withV at300 [(2, 0x05), (15, 0x55)] with i := 0x0FFE }
    (s.i, s.getV 15) = (0x1003, 0x55) := by decide
theorem test_font_not_masked :
    ((ran 0xF329 (withV at300 [(3, 0x0F)])).i, (ran 0xF329 (withV at300 [(3, 0xFF)])).i) = (0x004B, 0x04FB) := by decide
theorem test_bcd_last_base :
    let s := ran 0xF033 { withV at300 [(0, 0x7B)] with i := 0x0FFD }
    (s.byteAt 0xFFD, s.byteAt 0xFFE, s.byteAt 0xFFF) = (1, 2, 3) := by decide
theorem test_bcd_fault :
    let s := ran 0xF033 { withV at300 [(0, 0x7B)] with i := 0x0FFE }
    (s.fault.map (·.datum), s.byteAt 0xFFE, s.pc) = (some (.memoryFault 0x1000), 0, 0x300) := by decide
theorem test_stm :
    let s := ran 0xF255 { withV at300 [(0, 0x11), (1, 0x22), (2, 0x33), (3, 0x44)] with i := 0x400 }
    (s.byteAt 0x400, s.byteAt 0x401, s.byteAt 0x402, s.byteAt 0x403, s.i) = (0x11, 0x22, 0x33, 0x00, 0x400) := by decide
theorem test_stm_fault :
    let s := ran 0xFF55 { withV at300 [(0, 0xA0)] with i := 0x0FF1 }
    (s.run, s.fault.map (·.datum), s.byteAt 0xFF1) = (.halted .memoryFault, some (.memoryFault 0x1000), 0) := by decide
theorem test_ldm :
    let s := ran 0xF165 (({ withV at300 [(2, 0x44)] with i := 0x500 } : State).setBytesFrom 0x500 [0xDE, 0xAD, 0xBE])
    (s.getV 0, s.getV 1, s.getV 2, s.i) = (0xDE, 0xAD, 0x44, 0x500) := by decide
theorem test_ldm_fault :
    let s := ran 0xF165 { withV at300 [(0, 0x01), (1, 0x02)] with i := 0x0FFF }
    (s.run, s.getV 0, s.getV 1) = (.halted .memoryFault, 0x01, 0x02) := by decide
theorem test_drw_wraps_columns :
    let s := ran 0xD011 ({ withV at300 [(0, 0x3C), (1, 0x05)] with i := 0x400 }.setByteAt 0x400 0xFF)
    s.disp = (Vector.replicate 32 0).set 5 0xF00000000000000F := by decide
theorem test_drw_wraps_rows :
    let s := ran 0xD012 ({ withV at300 [(0, 0x3C), (1, 0x1F)] with i := 0x20C }.setBytesFrom 0x20C [0xFF, 0x81])
    s.disp = ((Vector.replicate 32 0).set 31 0xF00000000000000F).set 0 0x1000000000000008 := by decide
theorem test_rnd_draws_once :
    ((ran 0xC10F at300).pc, (ran 0xC10F at300).draws) = (0x302, 1) := by decide
/-- Whatever is drawn, the bits outside the mask end 0 (R190). -/
theorem test_rnd_mask_clears : ∃ t, exec (.rnd 1 0x0F) at300 = .next t ∧ t.getV 1 &&& 0xF0 = 0 := by
  refine ⟨_, rfl, ?_⟩
  show (Config.rnd 0 &&& 0x0F) &&& 0xF0 = 0
  rw [BitVec.and_assoc, show (0x0F &&& 0xF0 : Byte) = 0 by decide]
  exact BitVec.and_zero
theorem test_skp :
    let s := { withV at300 [(2, 0x0A)] with key := at300.key.set 10 true }
    ((ran 0xE29E s).pc, (ran 0xE29E (withV at300 [(2, 0x0A)])).pc) = (0x304, 0x302) := by decide
theorem test_skp_fault :
    let s := ran 0xE29E (withV at300 [(2, 0x10)])
    (s.run, s.fault.map (·.datum), s.pc) = (.halted .keyIndexFault, some (.keyIndexFault 0x10), 0x300) := by decide
theorem test_sknp :
    let s := { withV at300 [(2, 0x0A)] with key := at300.key.set 10 true }
    ((ran 0xE2A1 s).pc, (ran 0xE2A1 (withV at300 [(2, 0x0A)])).pc) = (0x302, 0x304) := by decide
theorem test_gdt :
    (ran 0xF507 { at300 with dt := 0x2C }).getV 5 = 0x2C := by decide
theorem test_keyw_waits :
    let s := ran 0xF30A at300
    (s.run, s.keyReq, s.pc, s.getV 3) = (.waitKey 3, true, 0x300, 0) := by decide
theorem test_keyw_completes :
    let s := acted (.keyEvent 0xC) (ran 0xF30A at300)
    (s.getV 3, s.pc, s.run, s.keyReq) = (0x0C, 0x302, .running, false) := by decide
theorem test_sdt :
    (ran 0xF515 (withV at300 [(5, 0x3C)])).dt = 0x3C := by decide
theorem test_sst_sounds :
    let s := ran 0xF518 (withV at300 [(5, 0x05)])
    (s.st, s.tone) = (0x05, true) := by decide
theorem test_illegal_word :
    let s := ran 0x8018 at300
    (s.run, s.fault, s.pc) = (.halted .unknownInstruction,
      some { datum := .unknownInstruction 0x8018 0x8, pc := 0x300, ir := 0x8018 }, 0x300) := by decide
theorem test_reset_memory :
    (State.reset.byteAt 0x04B, State.reset.byteAt 0x04C, State.reset.byteAt 0x050, State.reset.byteAt 0x200) =
      (0xF0, 0x80, 0x00, 0x00) := by decide
theorem test_tick_stops_at_zero :
    ((acted .tickDt { at300 with dt := 2 }).dt, (acted .tickDt at300).dt, (acted .tickSt { at300 with st := 1 }).st) =
      (1, 0, 0) := by decide
/-- A step request straight after reset with nothing loaded (95 table 2.7). -/
theorem test_step_from_bare_reset :
    ∃ t, step State.reset = .next t ∧ t.run = .halted .unknownInstruction ∧ t.ir = 0x0000 ∧ t.pc = 0x0200 :=
  ⟨_, rfl, by decide, by decide, by decide⟩
/-- A store that overwrites the next instruction is seen by the next fetch (R75). -/
theorem test_store_then_fetch :
    let s := ran 0xF155 { withV at300 [(0, 0x12), (1, 0x08)] with i := 0x302 }
    (match fetch s with | .ok w => w == 0x1208 | .error _ => false) = true := by decide
/-- A load of two bytes at 0xFFE succeeds, of three fails (95 table 2.7). -/
theorem test_load_bounds :
    ((match loadData 0xFFE [1, 2] State.reset with | .next t => t.byteAt 0xFFF == 2 | .fault _ => false | .refused _ => false) &&
     (match loadData 0xFFE [1, 2, 3] State.reset with
      | .next _ => false | .fault e => e == .outOfBounds 0xFFE 3 | .refused _ => false)) = true := by decide

/-! ## Witnesses: for each statement with hypotheses, values that meet all of them, clause by clause -/

/-- The state at `PC` 0x300 with `I` given. -/
def withI (i : Word) : State := { at300 with i := i }

/-- The core waiting for a key, a tick and a press coming. -/
def waiting : State :=
  { at300 with run := .waitKey 3, started := true, schedule := [[.tickDt, .setKey 12 true]] }

/-- The core halted, a tick and a key value coming. -/
def halted : State :=
  { at300 with
    run := .halted .unknownInstruction
    fault := some { datum := .unknownInstruction 0 0, pc := 0x300, ir := 0 }
    started := true
    schedule := [[.tickDt, .keyEvent 3]] }

/-- The invariant of a state at `PC` 0x300 that differs from the reset state in what no clause bounds. -/
theorem waiting_inv : waiting.Inv where
  memWf := Memory.wf_nil _
  spBound := by decide
  slotBound := by decide
  pcBound := by decide
  waitPcBound := fun _ _ => by decide
  record := rfl
  idleStarted := fun _ => rfl

/-- The same of the halted state. -/
theorem halted_inv : halted.Inv where
  memWf := Memory.wf_nil _
  spBound := by decide
  slotBound := by decide
  pcBound := by decide
  waitPcBound := fun _ _ => by decide
  record := ⟨_, rfl, rfl, rfl, rfl⟩
  idleStarted := fun _ => rfl

/-- A state of the invariant at the bounds: `SP` 16, a slot 0x0FFE, `PC` 0x10FE. -/
def atBounds : State := { State.reset with sp := 16, stack := State.reset.stack.set 15 0x0FFE, pc := 0x10FE }

theorem atBounds_inv : atBounds.Inv where
  memWf := Memory.wf_nil _
  spBound := by decide
  slotBound := by decide
  pcBound := by decide
  waitPcBound := fun _ h => by cases h
  record := rfl
  idleStarted := fun h => absurd rfl h

theorem witness_DecodeReadsBackEncode :
    (Instr.drw 15 15 15).wellFormed = true ∧ (Instr.jp 0xFFF).wellFormed = true ∧ (Instr.sei 15 0xFF).wellFormed = true :=
  by decide
theorem witness_EncodeReadsBackDecode :
    decodeWord 0xDFFF = .ok (.drw 15 15 15) :=
  by decide
theorem witness_DecodeAcceptsExactlyLegalWords :
    legalWord 0x00E0 = true ∧ legalWord 0x00E1 = false ∧ legalWord 0xF165 = true ∧ legalWord 0xF166 = false :=
  by decide
theorem witness_NoWordMatchesTwoRows :
    (0xF065, 0xF0FF) ∈ opcodeRows ∧ rowMatches 0xFF65 (0xF065, 0xF0FF) = true :=
  by decide
theorem witness_WordIsInstructionOfMatchedRow :
    (0x8004, 0xF00F) ∈ opcodeRows ∧ (0x8FF4 : Word) &&& 0xF00F = 0x8004 ∧ ¬ (0x8FF5 : Word) &&& 0xF00F = 0x8004 :=
  by decide
theorem witness_FetchReadsHighByteFirst :
    ({ at300 with pc := 0xFFE } : State).pc.toNat ≤ 0xFFE ∧ ({ at300 with pc := 0xFFF } : State).pc.toNat = 0xFFF ∧
      0xFFF < ({ at300 with pc := 0x1000 } : State).pc.toNat :=
  by decide
theorem witness_StepRunsDecodedInstruction :
    ∃ t, agentsAct (State.withFetchWord { at300 with pc := 0xFFE } 16 0x6A3C) = .next t ∧ t.run = .running ∧
      t.pc.toNat ≤ 0xFFE ∧ (0x6A3C : Word) = wordOfBytes (t.byteAt t.pc.toNat) (t.byteAt (t.pc.toNat + 1)) ∧
      decodeWord 0x6A3C = .ok (.ldi 0xA 0x3C) ∧ (Instr.ldi 0xA 0x3C).wellFormed = true :=
  ⟨_, rfl, by decide, by decide, by decide, by decide, by decide⟩
theorem witness_StepRequestRunsOneCycleOrNothing :
    at300.run = .running ∧ waiting.run = .waitKey 3 ∧ halted.run = .halted .unknownInstruction ∧ at300.schedule = [] :=
  by decide
theorem witness_IllegalWordHaltsCore :
    fetch State.reset = .ok 0x0000 ∧ legalWord 0x0000 = false :=
  ⟨rfl, by decide⟩
/-- At 0xFFF, where the lowest address above 0xFFF is 0x1000, and above it, where it is `PC`. -/
theorem witness_FetchBeyondMemoryHaltsCore :
    0x0FFE < ({ at300 with pc := 0xFFF } : State).pc.toNat ∧ 0x0FFE < ({ at300 with pc := 0x10FE } : State).pc.toNat :=
  by decide
/-- No load due, and a load that just fits. -/
theorem witness_StepAnswersNextUnlessLoadOversized :
    State.reset.loadsFit ∧ State.loadsFit { State.reset with schedule := [[.tickDt, .load 0xFFE [1, 2]]] } :=
  by
  refine ⟨fun batch later h => (by cases h), ?_⟩
  intro batch later h offset bytes hb
  cases h
  simp only [List.mem_cons, reduceCtorEq, Event.load.injEq, List.not_mem_nil, or_false, false_or] at hb
  obtain ⟨rfl, rfl⟩ := hb
  decide
theorem witness_StepKeepsInvariant :
    ∃ t, atBounds.Inv ∧ step atBounds = .next t :=
  ⟨_, atBounds_inv, rfl⟩
theorem witness_StepKeepsParameters :
    ∃ t, step { waiting with schedule := [[.keyEvent 1, .reset]] } = .next t :=
  ⟨_, rfl⟩
theorem witness_HaltedCoreStaysHalted :
    ∃ t, halted.Inv ∧ halted.run = .halted .unknownInstruction ∧ Event.reset ∉ halted.due ∧ step halted = .next t :=
  ⟨_, halted_inv, rfl, by decide, rfl⟩
theorem witness_WaitingCoreKeepsState :
    ∃ t, waiting.Inv ∧ waiting.run = .waitKey 3 ∧ Event.reset ∉ waiting.due ∧
      (∀ k, Event.keyEvent k ∉ waiting.due) ∧ step waiting = .next t :=
  ⟨_, waiting_inv, rfl, by decide, by decide, rfl⟩
/-- The self-jump at the last address a word has, and at 0x300. -/
theorem witness_FinishedProgramStaysFinished :
    State.finished (State.setBytesFrom { at300 with pc := 0xFFE } 0xFFE [0x1F, 0xFE]) ∧
      State.finished (at300.setBytesFrom 0x300 [0x13, 0x00]) :=
  ⟨⟨rfl, rfl, by decide⟩, ⟨rfl, rfl, by decide⟩⟩
/-- Started and not, a load that just fits and one that just does not, under both policies. -/
theorem witness_LoadWritesOrRejects :
    halted.started = true ∧ waiting.started = true ∧ ({ at300 with started := true } : State).started = true ∧
      State.reset.started = false ∧ 0xFFE + [(1 : Byte), 2].length ≤ 4096 ∧ 4096 < 0xFFE + [(1 : Byte), 2, 3].length ∧
      State.reset.params.loadPolicy = .reject ∧
      (State.afterReset { Config.defaults with loadPolicy := .truncate } 0 []).params.loadPolicy = .truncate ∧
      (State.afterReset { Config.defaults with loadPolicy := .truncate } 0 []).started = false :=
  by decide
/-- The longest program that fits. -/
theorem witness_BootRunsFirstProgramWord :
    (List.replicate 3582 (0 : Byte)).length ≤ 3582 ∧ decodeWord (wordOfBytes 0x12 0x00) = .ok (.jp 0x200) :=
  ⟨List.length_replicate.le, by decide⟩
theorem witness_CallPushesOwnAddress :
    at300.sp.toNat < 16 ∧ ({ at300 with sp := 15 } : State).sp.toNat < 16 ∧ ({ at300 with sp := 16 } : State).sp.toNat = 16 :=
  by decide
theorem witness_ReturnResumesAfterCall :
    (0 < ({ at300 with sp := 1 } : State).sp.toNat ∧ ({ at300 with sp := 1 } : State).sp.toNat ≤ 16) ∧
      (0 < atBounds.sp.toNat ∧ atBounds.sp.toNat ≤ 16) ∧ at300.sp.toNat = 0 :=
  by decide
theorem witness_CallThenReturnNetsPlusTwo :
    ({ at300 with sp := 15 } : State).sp.toNat < 16 :=
  by decide
/-- Both settings, and a sum of 256. -/
theorem witness_AddRegistersUnderBothSettings :
    at300.params.addSubFlag = .none ∧ (carryBorrow at300).params.addSubFlag = .carryBorrow ∧
      (1 : Byte) = (if 255 < ((withV at300 [(1, 0xFF), (2, 1)]).getV 1).toNat + ((withV at300 [(1, 0xFF), (2, 1)]).getV 2).toNat
        then 1 else 0) :=
  by decide
/-- Both settings, and equal registers. -/
theorem witness_SubtractRegistersUnderBothSettings :
    at300.params.addSubFlag = .none ∧ (carryBorrow at300).params.addSubFlag = .carryBorrow ∧
      (0 : Byte) = (if (at300.getV 2).toNat < (at300.getV 1).toNat then 1 else 0) :=
  by decide
/-- `y` 15 and `y` 1. -/
theorem witness_ShiftRightWritesBothRegisters :
    (1 : Byte) = BitVec.ofNat 8 (((withV at300 [(15, 0xFF)]).getV 15).toNat % 2) ∧
      (0 : Byte) = BitVec.ofNat 8 ((if (15 : Nibble) = 15 then (1 : Byte) else (withV at300 [(15, 0xFF)]).getV 15).toNat / 2) ∧
      (1 : Byte) = BitVec.ofNat 8 (((withV at300 [(1, 0xFF)]).getV 1).toNat % 2) ∧
      (0x7F : Byte) = BitVec.ofNat 8 ((if (1 : Nibble) = 15 then (1 : Byte) else (withV at300 [(1, 0xFF)]).getV 1).toNat / 2) :=
  by decide
/-- Equal, and greater by one. -/
theorem witness_ReverseSubtractFlagsStrictGreater :
    (0 : Byte) = (if (at300.getV 1).toNat < (at300.getV 2).toNat then 1 else 0) ∧
      (1 : Byte) = (if ((withV at300 [(2, 1)]).getV 1).toNat < ((withV at300 [(2, 1)]).getV 2).toNat then 1 else 0) :=
  by decide
/-- `y` 15 with bit 3 set, and `y` 1 with only bit 3 clear. -/
theorem witness_ShiftLeftFlagsBitThree :
    (0x08 : Byte) = (if ((withV at300 [(15, 0x0F)]).getV 15).getLsbD 3 then 0x08 else 0x00) ∧
      (0x10 : Byte) = BitVec.ofNat 8
        ((if (15 : Nibble) = 15 then (0x08 : Byte) else (withV at300 [(15, 0x0F)]).getV 15).toNat * 2 % 256) ∧
      (0x00 : Byte) = (if ((withV at300 [(1, 0xF7)]).getV 1).getLsbD 3 then 0x08 else 0x00) ∧
      (0xEE : Byte) = BitVec.ofNat 8
        ((if (1 : Nibble) = 15 then (0x00 : Byte) else (withV at300 [(1, 0xF7)]).getV 1).toNat * 2 % 256) :=
  by decide
/-- All four columns of the table. -/
theorem witness_VfAliasingTable :
    (∃ a b F : Byte, a = (withV at300 [(15, 0x10)]).getV 1 ∧ b = (withV at300 [(15, 0x10)]).getV 2 ∧
        F = (withV at300 [(15, 0x10)]).getV 15) ∧
      (∃ x y : Nibble, x ≠ 15 ∧ y ≠ 15) ∧ (∃ x y : Nibble, x = 15 ∧ y ≠ 15) ∧ (∃ x y : Nibble, x ≠ 15 ∧ y = 15) ∧
      (∃ x y : Nibble, x = 15 ∧ y = 15) :=
  ⟨⟨_, _, _, rfl, rfl, rfl⟩, ⟨1, 2, by decide⟩, ⟨15, 2, by decide⟩, ⟨1, 15, by decide⟩, ⟨15, 15, by decide⟩⟩
theorem witness_BcdStoresThreeDigits :
    ({ at300 with i := 0xFFD } : State).i.toNat + 2 ≤ 0xFFF ∧ 0xFFF < ({ at300 with i := 0xFFE } : State).i.toNat + 2 ∧
      0xFFF < ({ at300 with i := 0xFFFF } : State).i.toNat + 2 :=
  by decide
theorem witness_StoreRegistersToMemory :
    ({ at300 with i := 0xFF0 } : State).i.toNat + (15 : Nibble).toNat ≤ 0xFFF ∧
      0xFFF < ({ at300 with i := 0xFF1 } : State).i.toNat + (15 : Nibble).toNat :=
  by decide
theorem witness_LoadRegistersFromMemory :
    ({ at300 with i := 0xFFF } : State).i.toNat + (0 : Nibble).toNat ≤ 0xFFF ∧
      0xFFF < ({ at300 with i := 0xFFF } : State).i.toNat + (1 : Nibble).toNat :=
  by decide
/-- The highest block, and registers overwritten since. -/
theorem witness_StoreThenLoadRestoresRegisters :
    ∃ t u : State, ({ at300 with i := 0xFF0 } : State).i.toNat + (15 : Nibble).toNat ≤ 0xFFF ∧
      exec (.stm 15) { at300 with i := 0xFF0 } = .next t ∧ u.mem = t.mem ∧ u.params = t.params ∧ u.i = t.i ∧
      u.getV 0 = 0x55 :=
  ⟨_, State.setV { at300 with i := 0xFF0, pc := 0x302 } 0 0x55, by decide, rfl, rfl, rfl, rfl, rfl⟩
/-- Each form, with the highest block that fits and the lowest that does not. -/
theorem witness_BlockRangeCheckedBeforeEffect :
    (∃ x, Instr.bcd 0 = .bcd x ∧ 3 = 3) ∧ (∃ x, Instr.stm 15 = .stm x ∧ 16 = x.toNat + 1) ∧
      (∃ x, Instr.ldm 15 = .ldm x ∧ 16 = x.toNat + 1) ∧ (∃ x y k, Instr.drw 0 0 0 = .drw x y k ∧ 0 = k.toNat) ∧
      (0 < 16 ∧ 0xFFF < ({ at300 with i := 0xFF1 } : State).i.toNat + 16 - 1) ∧
      ({ at300 with i := 0xFF0 } : State).i.toNat + 16 - 1 ≤ 0xFFF :=
  ⟨⟨0, rfl, rfl⟩, ⟨15, rfl, by decide⟩, ⟨15, rfl, by decide⟩, ⟨0, 0, 0, rfl, by decide⟩, by decide, by decide⟩
theorem witness_StoreSeenByNextFetch :
    ∃ t, ({ at300 with i := 0x302 } : State).i.toNat + (1 : Nibble).toNat ≤ 0xFFF ∧ (0 : Nibble).toNat + 1 ≤ (1 : Nibble).toNat ∧
      ({ at300 with i := 0x302 } : State).pc.toNat + 2 = ({ at300 with i := 0x302 } : State).i.toNat + (0 : Nibble).toNat ∧
      exec (.stm 1) { at300 with i := 0x302 } = .next t :=
  ⟨_, by decide, by decide, by decide, rfl⟩
theorem witness_DrawTogglesWrappedSpriteBits :
    (0 : Nibble).toNat = 0 ∧ ({ at300 with i := 0xFFF } : State).i.toNat + (1 : Nibble).toNat - 1 ≤ 0xFFF ∧
      (0 < (2 : Nibble).toNat ∧ 0xFFF < ({ at300 with i := 0xFFF } : State).i.toNat + (2 : Nibble).toNat - 1) :=
  by decide
theorem witness_DrawTwiceRestoresDisplay :
    ({ at300 with i := 0xFF1 } : State).i.toNat + (15 : Nibble).toNat - 1 ≤ 0xFFF ∧ (0 : Nibble).toNat = 0 :=
  by decide
theorem witness_KeySkipsReadKeyState :
    ((withV at300 [(2, 15)]).getV 2).toNat < 16 ∧ 15 < ((withV at300 [(2, 16)]).getV 2).toNat :=
  by decide
theorem witness_KeyWaitAndDelivery :
    waiting.run = .waitKey 3 ∧ (∀ z, at300.run ≠ .waitKey z) ∧ ∀ z, halted.run ≠ .waitKey z :=
  by decide
theorem witness_InstructionsKeepOtherRegisters :
    (∃ t, exec (.shr 1 2) at300 = .next t ∧ ¬ mayWriteV at300.params (.shr 1 2) 3) ∧
      (∃ t, exec (.add 1 2) at300 = .next t ∧ ¬ mayWriteV at300.params (.add 1 2) 15) ∧
      (∃ t, exec (.ldm 2) at300 = .next t ∧ ¬ mayWriteV at300.params (.ldm 2) 3) :=
  ⟨⟨_, rfl, by simp [mayWriteV]⟩, ⟨_, rfl, by simp [mayWriteV]; decide⟩, ⟨_, rfl, by simp [mayWriteV]⟩⟩
/-- The bytes just below and just above the three stored. -/
theorem witness_InstructionsKeepOtherMemory :
    ∃ t, exec (.bcd 0) { at300 with i := 0x400 } = .next t ∧
      (0x3FF < ({ at300 with i := 0x400 } : State).i.toNat ∨ ({ at300 with i := 0x400 } : State).i.toNat + storedBytes (.bcd 0) ≤ 0x3FF) ∧
      (0x403 < ({ at300 with i := 0x400 } : State).i.toNat ∨ ({ at300 with i := 0x400 } : State).i.toNat + storedBytes (.bcd 0) ≤ 0x403) :=
  ⟨_, rfl, by decide, by decide⟩
theorem witness_InstructionsKeepOtherState :
    ∃ t, exec (.call 0x400) at300 = .next t ∧ 1 ≠ at300.sp.toNat :=
  ⟨_, rfl, by decide⟩
theorem witness_OtherInstructionsAdvanceByTwo :
    ∃ t, ¬ setsPcItself .cls ∧ exec .cls at300 = .next t ∧ ¬ t.isHalted :=
  ⟨_, id, rfl, fun ⟨_, h⟩ => by cases h⟩
theorem witness_FaultingInstructionWritesNothing :
    ∃ t, at300.run = .running ∧ exec .ret at300 = .next t ∧ t.isHalted :=
  ⟨_, rfl, rfl, ⟨_, rfl⟩⟩
/-- The two stack causes, at the bounds of `SP`. -/
theorem witness_FaultsOfEachInstruction :
    (at300.run = .running ∧ at300.sp.toNat ≤ 16 ∧ exec .ret at300 = .next (at300.raised (.stackUnderflow at300.ir))) ∧
      (atBounds.run = .running ∧ atBounds.sp.toNat ≤ 16 ∧
        exec (.call 0) atBounds = .next (atBounds.raised (.stackOverflow atBounds.ir))) :=
  ⟨⟨rfl, by decide, rfl⟩, ⟨rfl, by decide, rfl⟩⟩
/-- The key cause, at the lowest value that is no key number. -/
theorem witness_FaultsOfEachInstruction_key :
    (withV at300 [(2, 16)]).run = .running ∧ (withV at300 [(2, 16)]).sp.toNat ≤ 16 ∧
      exec (.skp 2) (withV at300 [(2, 16)]) = .next ((withV at300 [(2, 16)]).raised (.keyIndexFault 16)) ∧
      exec (.sknp 2) (withV at300 [(2, 16)]) = .next ((withV at300 [(2, 16)]).raised (.keyIndexFault 16)) :=
  ⟨rfl, by decide, rfl, rfl⟩
/-- The memory cause of each block instruction, one byte beyond memory, and at a base beyond it. -/
theorem witness_FaultsOfEachInstruction_memory :
    (withI 0xFFE).run = .running ∧ (withI 0xFFE).sp.toNat ≤ 16 ∧
      exec (.bcd 0) (withI 0xFFE) = .next ((withI 0xFFE).raised (.memoryFault 0x1000)) ∧
      exec (.stm 2) (withI 0xFFE) = .next ((withI 0xFFE).raised (.memoryFault 0x1000)) ∧
      exec (.ldm 2) (withI 0xFFE) = .next ((withI 0xFFE).raised (.memoryFault 0x1000)) ∧
      exec (.drw 0 0 3) (withI 0xFFE) = .next ((withI 0xFFE).raised (.memoryFault 0x1000)) ∧
      exec (.drw 0 0 1) (withI 0x1234) = .next ((withI 0x1234).raised (.memoryFault 0x1234)) :=
  ⟨rfl, by decide, rfl, rfl, rfl, rfl, rfl⟩
theorem witness_RunStateChangesOnlyByWaitOrFault :
    (∃ t, exec (.keyw 3) at300 = .next t ∧ t.run = .waitKey 3) ∧ (∃ t, exec .ret at300 = .next t ∧ t.isHalted) ∧
      at300.run = .running :=
  ⟨⟨_, rfl, rfl⟩, ⟨_, rfl, _, rfl⟩, rfl⟩

end Sys2Proof.Tests
end

section
/-! The open parameters `ADDSUB_FLAG`, `LOAD_POLICY` and `FONT` (00_scope R7): every action of an agent and every step
request keeps them, and so does a step, which is the one after the other. -/

namespace Sys2Proof.Machine

variable {s t : State}

/-- A key value writes one register, `PC` and the run state at most. -/
@[simp] theorem State.offerKey_params (s : State) (k : Nibble) : (s.offerKey k).params = s.params := by
  unfold State.offerKey
  cases s.run <;> rfl

/-- A load that goes on has written memory at most, whichever part of it fitted. -/
theorem loadData_params {offset : Nat} {bytes : List Byte} (h : loadData offset bytes s = .next t) :
    t.params = s.params := by
  rcases loadData_cases offset bytes s with ⟨bs, -, hnext⟩ | ⟨-, -, hfault⟩
  · cases hnext.symm.trans h
    exact s.setBytesFrom_params offset bs
  · cases hfault.symm.trans h

/-- No action of an agent changes the parameters, reset and loads included. -/
theorem applyEvent_params {e : Event} (h : applyEvent e s = .next t) : t.params = s.params := by
  cases e with
  | load offset bytes =>
    by_cases hs : s.started = true
    · cases (if_pos hs).symm.trans h
      rfl
    · exact loadData_params ((if_neg hs).symm.trans h)
  | keyEvent k =>
    cases h
    exact s.offerKey_params k
  | tickDt | tickSt | setKey | readDisplay | reset =>
    cases h
    rfl

/-- The agents together keep the parameters. -/
theorem agentsAct_params (h : agentsAct s = .next t) : t.params = s.params :=
  agentsAct_keeps (fun u => u.params = s.params) (fun _ _ _ hu he => (applyEvent_params he).trans hu)
    (fun _ _ hu => hu) s t rfl h

/-- Each of the three kinds of answer of an instruction keeps the parameters. -/
theorem Answers.params {i : Instr} (h : Answers i s t) : t.params = s.params := by
  rcases h with ⟨f, rfl⟩ | ⟨x, -, rfl⟩ | hc
  · exact s.raised_params f
  · rfl
  · exact hc.params

/-- A cycle keeps the parameters, whether it faults or executes an instruction. -/
theorem cycle_params (h : cycle s = .next t) : t.params = s.params := by
  obtain ⟨u, hu, hcases⟩ := cycle_answers s
  cases hu.symm.trans h
  rcases hcases with ⟨f, r, rfl⟩ | ⟨-, i, w, ha⟩
  · rfl
  · exact ha.params

/-- A step request keeps the parameters in each of the three run states. -/
theorem stepRequest_params (h : stepRequest s = .next t) : t.params = s.params := by
  rcases stepRequest_cases s with ⟨-, hcycle⟩ | ⟨-, hidle⟩
  · exact cycle_params (s := { s with started := true }) (hcycle.symm.trans h)
  · cases hidle.symm.trans h
    rfl

/-- Settles O15: the agents keep the parameters, and so does the step request after them. -/
theorem stepKeepsParameters : Obligations.StepKeepsParameters := by
  intro s t h
  obtain ⟨u, hagents, hrequest⟩ := (step_eq_next s t).mp h
  exact (stepRequest_params hrequest).trans (agentsAct_params hagents)

end Sys2Proof.Machine
end

section
/-! The invariant of the reachable states (10_state R23, R27, R29, R34, R35): reset meets it, every action of an agent
and every kind of answer of the core keeps it, and so does a step, which is the one after the other. -/

namespace Sys2Proof.Machine

variable {s t : State}

/-! ## The fault record beside each run state -/

/-- A running core agrees with its fault record when there is none. -/
theorem State.recordMatchesRun_running (hrun : s.run = .running) : s.recordMatchesRun ↔ s.fault = none := by
  unfold State.recordMatchesRun
  rw [hrun]

/-- A waiting core agrees with its fault record when there is none. -/
theorem State.recordMatchesRun_waitKey {x : Nibble} (hrun : s.run = .waitKey x) :
    s.recordMatchesRun ↔ s.fault = none := by
  unfold State.recordMatchesRun
  rw [hrun]

/-- Fault entry leaves a record of its own cause, `PC` and `IR`. -/
theorem State.raised_recordMatchesRun (s : State) (f : CoreFault) : (s.raised f).recordMatchesRun :=
  ⟨_, rfl, rfl, rfl, rfl⟩

/-- A running core of the invariant has no fault record. -/
theorem State.Inv.noRecord (hs : s.Inv) (hrun : s.run = .running) : s.fault = none :=
  (State.recordMatchesRun_running hrun).mp hs.record

/-! ## What the agents do -/

/-- The invariant speaks neither of the timers nor of the keys, nor of what the agents still have to do. -/
theorem State.Inv.withAgentFields (hs : s.Inv) (dt st : Byte) (key : Vector Bool 16) (schedule : List (List Event)) :
    State.Inv { s with dt := dt, st := st, key := key, schedule := schedule } where
  memWf := hs.memWf
  spBound := hs.spBound
  slotBound := hs.slotBound
  pcBound := hs.pcBound
  waitPcBound := hs.waitPcBound
  record := hs.record
  idleStarted := hs.idleStarted

/-- Writing bytes that lie in memory keeps the invariant. -/
theorem State.Inv.setBytesFrom (hs : s.Inv) {a : Nat} {bs : List Byte} (hfits : a + bs.length ≤ memSize) :
    (s.setBytesFrom a bs).Inv where
  memWf := Memory.wf_writeFrom _ _ _ _ hfits hs.memWf
  spBound := hs.spBound
  slotBound := hs.slotBound
  pcBound := hs.pcBound
  waitPcBound := hs.waitPcBound
  record := hs.record
  idleStarted := hs.idleStarted

/-- Whatever part of a load fits, writing it keeps the invariant. -/
theorem State.Inv.loadData (hs : s.Inv) {offset : Nat} {bytes : List Byte}
    (h : loadData offset bytes s = .next t) : t.Inv := by
  rcases loadData_cases offset bytes s with ⟨bs, hbs, hnext⟩ | ⟨-, -, hfault⟩
  · cases hnext.symm.trans h
    rcases hbs with rfl | hfits
    · exact hs
    · exact hs.setBytesFrom hfits
  · cases hfault.symm.trans h

/-- Reset meets the invariant, whatever the outside world's fields hold. -/
theorem State.afterReset_inv (p : Params) (d : Nat) (later : List (List Event)) : (State.afterReset p d later).Inv where
  memWf := Memory.wf_nil _
  spBound := Nat.zero_le _
  slotBound k := by simp [State.afterReset]
  pcBound := show (0x0200 : Word).toNat ≤ 0x10FE by decide
  waitPcBound _ h := by cases h
  record := rfl
  idleStarted h := absurd rfl h

/-- A key value is taken only by a waiting core, whose `PC` is that of a fetched instruction. -/
theorem State.Inv.offerKey (hs : s.Inv) (k : Nibble) : (s.offerKey k).Inv := by
  unfold State.offerKey
  cases hrun : s.run with
  | running | halted => exact hs
  | waitKey x =>
    exact {
      memWf := hs.memWf
      spBound := hs.spBound
      slotBound := hs.slotBound
      pcBound := pc_advance_bound _ _ (by decide) (hs.waitPcBound x hrun)
      waitPcBound := fun _ h => by cases h
      record := (State.recordMatchesRun_waitKey hrun).mp hs.record
      idleStarted := fun h => absurd rfl h }

/-- Every action of an agent keeps the invariant. -/
theorem State.Inv.applyEvent {e : Event} (hs : s.Inv) (h : applyEvent e s = .next t) : t.Inv := by
  cases e with
  | tickDt =>
    cases h
    exact hs.withAgentFields s.tickDt.dt s.st s.key s.schedule
  | tickSt =>
    cases h
    exact hs.withAgentFields s.dt s.tickSt.st s.key s.schedule
  | setKey k p =>
    cases h
    exact hs.withAgentFields s.dt s.st (s.setKey k p).key s.schedule
  | keyEvent k =>
    cases h
    exact hs.offerKey k
  | readDisplay =>
    cases h
    exact hs
  | load offset bytes =>
    by_cases hstarted : s.started = true
    · cases (if_pos hstarted).symm.trans h
      exact hs
    · exact hs.loadData ((if_neg hstarted).symm.trans h)
  | reset =>
    cases h
    exact State.afterReset_inv _ _ _

/-- The agents together keep the invariant. -/
theorem State.Inv.agentsAct (hs : s.Inv) (h : agentsAct s = .next t) : t.Inv :=
  agentsAct_keeps State.Inv (fun _ _ _ hu he => hu.applyEvent he)
    (fun u later hu => hu.withAgentFields u.dt u.st u.key later) s t hs h

/-! ## What the core does -/

/-- A running core keeps the invariant when it takes a step request and latches a word. -/
theorem State.Inv.latched (hs : s.Inv) (hrun : s.run = .running) (w : Word) :
    State.Inv { s with started := true, ir := w } where
  memWf := hs.memWf
  spBound := hs.spBound
  slotBound := hs.slotBound
  pcBound := hs.pcBound
  waitPcBound := hs.waitPcBound
  record := (State.recordMatchesRun_running (by exact hrun)).mpr (hs.noRecord hrun)
  idleStarted _ := rfl

/-- Fault entry after a step request keeps the invariant. -/
theorem State.Inv.raised (hs : s.Inv) (hstarted : s.started = true) (f : CoreFault) : (s.raised f).Inv where
  memWf := hs.memWf
  spBound := hs.spBound
  slotBound := hs.slotBound
  pcBound := hs.pcBound
  waitPcBound _ h := by cases h
  record := s.raised_recordMatchesRun f
  idleStarted _ := hstarted

/-- A running core that starts to wait at a fetched instruction keeps the invariant. -/
theorem State.Inv.waiting (hs : s.Inv) (hstarted : s.started = true) (hrun : s.run = .running)
    (hpc : s.pc.toNat ≤ 0x0FFE) (x : Nibble) : State.Inv { s with run := .waitKey x } where
  memWf := hs.memWf
  spBound := hs.spBound
  slotBound := hs.slotBound
  pcBound := hs.pcBound
  waitPcBound _ _ := hpc
  record := hs.noRecord hrun
  idleStarted _ := hstarted

/-- A fetched instruction that completes keeps the invariant. -/
theorem Completes.inv (hc : Completes s t) (hs : s.Inv) (hrun : s.run = .running) (hpc : s.pc.toNat ≤ 0x0FFE) :
    t.Inv := by
  have htrun : t.run = .running := hc.run.trans hrun
  exact {
    memWf := hc.params ▸ hc.memWf hs.memWf
    spBound := hc.spBound hs.spBound
    slotBound := hc.slotBound hpc hs.slotBound
    pcBound := hc.pcBound hpc hs.slotBound
    waitPcBound := fun _ h => by cases htrun.symm.trans h
    record := (State.recordMatchesRun_running htrun).mpr (hc.fault.trans (hs.noRecord hrun))
    idleStarted := fun h => absurd htrun h }

/-- Each of the three kinds of answer of a fetched instruction keeps the invariant. -/
theorem Answers.inv {i : Instr} (ha : Answers i s t) (hs : s.Inv) (hstarted : s.started = true)
    (hrun : s.run = .running) (hpc : s.pc.toNat ≤ 0x0FFE) : t.Inv := by
  rcases ha with ⟨f, rfl⟩ | ⟨x, -, rfl⟩ | hc
  · exact hs.raised hstarted f
  · exact hs.waiting hstarted hrun hpc x
  · exact hc.inv hs hrun hpc

/-- A step request keeps the invariant: a running core enters a fault or executes a fetched instruction, and every
other core stays as it is. -/
theorem State.Inv.stepRequest (hs : s.Inv) (h : stepRequest s = .next t) : t.Inv := by
  rcases stepRequest_cases s with ⟨hrun, hcycle⟩ | ⟨-, hidle⟩
  · obtain ⟨u, hu, hcases⟩ := cycle_answers { s with started := true }
    cases hu.symm.trans (hcycle.symm.trans h)
    rcases hcases with ⟨f, w, rfl⟩ | ⟨hpc, i, w, ha⟩
    · exact (hs.latched hrun w).raised rfl f
    · exact ha.inv (hs.latched hrun w) rfl hrun hpc
  · cases hidle.symm.trans h
    exact hs

/-- Settles O14: the agents keep the invariant, and so does the step request after them. -/
theorem stepKeepsInvariant : Obligations.StepKeepsInvariant := by
  intro s t hs h
  obtain ⟨u, hagents, hrequest⟩ := (step_eq_next s t).mp h
  exact (hs.agentsAct hagents).stepRequest hrequest

/-- Settles O13: each of the three is a state that reset leaves. -/
theorem resetMeetsInvariant : Obligations.ResetMeetsInvariant :=
  ⟨State.afterReset_inv _ _ _, fun _ => State.afterReset_inv _ _ _, rfl⟩

end Sys2Proof.Machine
end

section
/-! The agents' actions one by one (10_state R41 to R47, 70 R240 to R245): the step request and the instruction it
runs, reset, the timer ticks, the key flags, and the loader. -/

namespace Sys2Proof.Machine

variable {s t : State}

/-! ## The step and the step request -/

/-- A step is the step request on the state the agents leave. -/
theorem step_of_agentsAct (h : agentsAct s = .next t) : step s = stepRequest t := by
  unfold step agentsThenStep
  rw [h]
  rfl

/-- With an empty schedule the agents leave the state as it is. -/
theorem agentsAct_nil (h : s.schedule = []) : agentsAct s = .next s := by
  unfold agentsAct
  rw [h]

/-- A step request to a running core is one cycle. -/
theorem stepRequest_running (h : s.run = .running) : stepRequest s = cycle { s with started := true } := by
  rcases stepRequest_cases s with ⟨-, hcycle⟩ | ⟨hrun, -⟩
  · exact hcycle
  · exact absurd h hrun

/-- A step request to a core that does not run changes nothing. -/
theorem stepRequest_idle (h : s.run ≠ .running) : stepRequest s = .next s := by
  rcases stepRequest_cases s with ⟨hrun, -⟩ | ⟨-, hidle⟩
  · exact absurd hrun h
  · exact hidle

/-- A cycle inside memory decodes and executes the word of the two bytes at `PC`. -/
theorem cycle_inside (h : s.pc.toNat ≤ 0xFFE) :
    cycle s = decodeAndExecute (wordOfBytes (s.byteAt s.pc.toNat) (s.byteAt (s.pc.toNat + 1))) s := by
  unfold cycle
  rw [fetch_inside s h]

/-- Settles O8: the step is the request's cycle, whose fetch reads the word that decodes to the instruction. -/
theorem stepRunsDecodedInstruction : Obligations.StepRunsDecodedInstruction := by
  intro s t w i hagents hrun hpc hw hdecode _
  subst hw
  calc step s
      = cycle { t with started := true } := (step_of_agentsAct hagents).trans (stepRequest_running hrun)
    _ = decodeAndExecute _ { t with started := true } := cycle_inside hpc
    _ = exec i _ := decodeAndExecute_ok hdecode _

/-- Settles O9: one clause for each run state, and the step whose agents do nothing. -/
theorem stepRequestRunsOneCycleOrNothing : Obligations.StepRequestRunsOneCycleOrNothing := fun _ =>
  ⟨stepRequest_running,
   fun _ h => stepRequest_idle (by simp [h]),
   fun _ h => stepRequest_idle (by simp [h]),
   fun h => step_of_agentsAct (agentsAct_nil h)⟩

/-! ## Reset -/

/-- After reset every register reads 0. -/
theorem State.afterReset_getV (p : Params) (d : Nat) (later : List (List Event)) (z : Nibble) :
    (State.afterReset p d later).getV z = 0x00 :=
  Vector.getElem_replicate _

/-- After reset memory lists no byte, so every address reads as unlisted. -/
theorem State.afterReset_byteAt (p : Params) (d : Nat) (later : List (List Event)) (a : Nat) :
    (State.afterReset p d later).byteAt a = Memory.unlisted p.font a :=
  rfl

/-- After reset every pixel is off. -/
theorem State.afterReset_pixel (p : Params) (d : Nat) (later : List (List Event)) (px py : Nat) (hpy : py < 32) :
    (State.afterReset p d later).pixel px py = false := by
  show pixelOf (Vector.replicate 32 0) px py = false
  simp [pixelOf, hpy]

/-- Settles O19: element by element, memory as it reads when nothing is listed. -/
theorem resetSetsEveryElement : Obligations.ResetSetsEveryElement := by
  intro s
  refine ⟨s.resetInput, rfl, State.afterReset_getV _ _ _, rfl, rfl, rfl, fun _ => Vector.getElem_replicate _,
    fun j => ?font, fun a ha _ => ?rest, fun px _ py hpy => State.afterReset_pixel _ _ _ px py hpy, rfl, rfl,
    fun _ => Vector.getElem_replicate _, rfl, rfl, rfl⟩
  case font => exact (State.afterReset_byteAt _ _ _ _).trans (dif_pos j.isLt)
  case rest => exact (State.afterReset_byteAt _ _ _ _).trans (dif_neg (by omega))

/-! ## Timers and keys -/

/-- The decrement of a timer stops at 0, as subtraction of numbers does. -/
theorem toNat_tick (b : Byte) : (if 0 < b.toNat then b - 1 else b).toNat = b.toNat - 1 := by
  split
  · bv_omega
  · omega

/-- Settles O20: each tick writes its own timer alone. -/
theorem ticksDecrementToZero : Obligations.TicksDecrementToZero := fun s =>
  ⟨⟨s.tickDt, rfl, rfl, toNat_tick s.dt⟩, ⟨s.tickSt, rfl, rfl, toNat_tick s.st⟩⟩

/-- Settles O21: the flag written reads back, and every other flag as before. -/
theorem keyWriteDrivesOneFlag : Obligations.KeyWriteDrivesOneFlag := by
  intro s k p
  refine ⟨s.setKey k p, rfl, rfl, fun j hj => ?_⟩
  simp only [State.setKey_key, Vector.getElem_set, eq_comm]

/-! ## The loader -/

/-- Before the first step request a load is `loadData`. -/
theorem applyEvent_load_fresh (h : s.started = false) (offset : Nat) (bytes : List Byte) :
    applyEvent (.load offset bytes) s = loadData offset bytes s :=
  if_neg (by simp [h])

/-- After the first step request a load has no effect. -/
theorem applyEvent_load_started (h : s.started = true) (offset : Nat) (bytes : List Byte) :
    applyEvent (.load offset bytes) s = .next s :=
  if_pos h

/-- A load that fits writes all its bytes. -/
theorem loadData_fits {offset : Nat} {bytes : List Byte} (h : offset + bytes.length ≤ memSize) :
    loadData offset bytes s = .next (s.setBytesFrom offset bytes) :=
  if_pos h

/-- A load that does not fit stops the machine under `REJECT`. -/
theorem loadData_reject {offset : Nat} {bytes : List Byte} (h : memSize < offset + bytes.length)
    (hpolicy : s.params.loadPolicy = .reject) :
    loadData offset bytes s = .fault (.outOfBounds offset bytes.length) := by
  unfold loadData
  rw [if_neg (by omega), hpolicy]

/-- A load that does not fit writes the bytes there is room for under `TRUNCATE`. -/
theorem loadData_truncate {offset : Nat} {bytes : List Byte} (h : memSize < offset + bytes.length)
    (hpolicy : s.params.loadPolicy = .truncate) :
    loadData offset bytes s = .next (s.setBytesFrom offset (bytes.take (room offset))) := by
  unfold loadData
  rw [if_neg (by omega), hpolicy]

/-- The bytes that fit fill memory from the offset to its end. -/
theorem State.setBytesFrom_take_room_byteAt (s : State) {offset : Nat} {bytes : List Byte}
    (h : memSize < offset + bytes.length) (a : Nat) :
    (s.setBytesFrom offset (bytes.take (room offset))).byteAt a =
      if offset ≤ a ∧ a < memSize then bytes[a - offset]?.getD 0 else s.byteAt a := by
  have hblock : (offset ≤ a ∧ a < offset + (bytes.take (room offset)).length) ↔ offset ≤ a ∧ a < memSize := by
    simp only [List.length_take, room]
    omega
  simp only [State.setBytesFrom_byteAt, hblock]
  split
  · next ha =>
    have hroom : a - offset < room offset := by
      unfold room
      omega
    rw [List.getElem?_take_of_lt hroom]
  · rfl

/-- Settles O22: the mark `started`, the length and the policy decide between the clauses. -/
theorem loadWritesOrRejects : Obligations.LoadWritesOrRejects := by
  intro s offset bytes
  refine ⟨rfl, fun hstarted => applyEvent_load_started hstarted offset bytes, fun hfresh hfits => ?fits,
    fun hfresh hlong hpolicy => ?reject, fun hfresh hlong hpolicy => ?truncate⟩ <;>
    rw [applyEvent_load_fresh hfresh]
  case fits => exact ⟨_, loadData_fits hfits, rfl, fun a => s.setBytesFrom_byteAt offset a bytes⟩
  case reject => exact loadData_reject hlong hpolicy
  case truncate => exact ⟨_, loadData_truncate hlong hpolicy, rfl, s.setBytesFrom_take_room_byteAt hlong⟩

end Sys2Proof.Machine
end

section
/-! The frame of every instruction (10_state R20 to R34, 20_memory R65; 92 D17): `written` names what each instruction
that does not fault writes beside `PC` and `RUN`, `exec_cases` ties it to `exec`, and each frame claim reads a part of
the state off it. -/

namespace Sys2Proof.Machine

variable {i : Instr} {s t : State}

/-- The state with an instruction's writes, those to `PC` and `RUN` apart. -/
def written : Instr → State → State
  | .cls, s => { s with disp := Vector.replicate 32 0 }
  | .ret, s => { s with sp := s.sp - 1 }
  | .call _, s => { s with stack := s.stack.setIfInBounds s.sp.toNat s.pc, sp := s.sp + 1 }
  | .ldi x nn, s => s.setV x nn
  | .addi x nn, s => s.setV x (s.getV x + nn)
  | .mov x y, s => s.setV x (s.getV y)
  | .or x y, s => s.setV x (s.getV x ||| s.getV y)
  | .and x y, s => s.setV x (s.getV x &&& s.getV y)
  | .xor x y, s => s.setV x (s.getV x ^^^ s.getV y)
  | .add x y, s =>
    let t := withAddSubFlag s (addFlag (s.getV x) (s.getV y))
    { s with v := (t.setV x (t.getV x + t.getV y)).v }
  | .sub x y, s =>
    let t := withAddSubFlag s (subFlag (s.getV x) (s.getV y))
    { s with v := (t.setV x (t.getV x - t.getV y)).v }
  | .shr x y, s =>
    let t := s.setVF (shrFlag (s.getV y))
    (t.setV y (shiftedRight (t.getV y))).setV x (shiftedRight (t.getV y))
  | .subn x y, s =>
    let t := s.setVF (subnFlag (s.getV x) (s.getV y))
    t.setV x (t.getV y - t.getV x)
  | .shl x y, s =>
    let t := s.setVF (shlFlag (s.getV y))
    (t.setV y (shiftedLeft (t.getV y))).setV x (shiftedLeft (t.getV y))
  | .ldix nnn, s => { s with i := zextAddr nnn }
  | .rnd x nn, s => { s.setV x (Config.rnd s.draws &&& nn) with draws := s.draws + 1 }
  | .drw x y n, s =>
    { s with disp := drawRows s.disp (s.getV x).toNat (s.getV y).toNat (s.bytesFrom s.i.toNat n.toNat) }
  | .gdt x, s => s.setV x s.dt
  | .sdt x, s => { s with dt := s.getV x }
  | .sst x, s => { s with st := s.getV x }
  | .addix x, s => { s with i := s.i + zextByte (s.getV x) }
  | .font x, s => { s with i := glyphAddr (s.getV x) }
  | .bcd x, s => s.setBytesFrom s.i.toNat (decimalDigits (s.getV x))
  | .stm x, s => s.setBytesFrom s.i.toNat (s.firstV (blockLength x))
  | .ldm x, s => { s with v := fillV s.v 0 (s.bytesFrom s.i.toNat (blockLength x)) }
  | .jp _, s | .sei _ _, s | .snei _ _, s | .se _ _, s | .sne _ _, s | .jp0 _, s | .skp _, s | .sknp _, s
  | .keyw _, s => s

/-- The answer `t` of an instruction in `s`: a fault was entered, or the writes were made. -/
def FaultsOrWrites (i : Instr) (s t : State) : Prop :=
  (∃ f, t = s.raised f) ∨ ∃ pc run, t = { written i s with pc := pc, run := run }

/-- A slot that exists may be written without its bound at hand. -/
theorem stack_set_eq (stack : Vector Word 16) (w : Word) {k : Nat} (hk : k < 16) :
    stack.set k w hk = stack.setIfInBounds k w := by
  ext j hj
  rw [Vector.getElem_set, Vector.getElem_setIfInBounds]

/-- 2nnn faults or pushes. -/
theorem execCall_cases {nnn : Addr12} (h : execCall nnn s = .next t) : FaultsOrWrites (.call nnn) s t := by
  unfold execCall at h
  by_cases hsp : s.sp.toNat < 16
  · rw [State.push_free s s.pc hsp] at h
    cases h
    refine .inr ⟨zextAddr nnn, s.run, ?_⟩
    rw [stack_set_eq s.stack s.pc hsp]
    rfl
  · rw [State.push_full s s.pc (by omega)] at h
    cases h
    exact .inl ⟨_, rfl⟩

/-- 00EE faults or pops. -/
theorem execRet_cases (h : execRet s = .next t) : FaultsOrWrites .ret s t := by
  unfold execRet at h
  by_cases hsp : 0 < s.sp.toNat ∧ s.sp.toNat ≤ 16
  · rw [State.pop_live s hsp.1 hsp.2] at h
    cases h
    exact .inr ⟨_, s.run, rfl⟩
  · rw [State.pop_none s (by omega)] at h
    cases h
    exact .inl ⟨_, rfl⟩

/-- A key skip faults or moves `PC`. -/
theorem keySkip_cases {f : CoreFault} (o : Option Bool) (c : Bool → Bool) (hwritten : written i s = s)
    (h : (match o with | some p => skipIf (c p) s | none => raise f s) = .next t) : FaultsOrWrites i s t := by
  cases o with
  | none =>
    cases h
    exact .inl ⟨f, rfl⟩
  | some p =>
    cases h
    refine .inr ⟨s.pc + if c p then 4 else 2, s.run, ?_⟩
    rw [hwritten]
    rfl

/-- A block instruction faults or writes. -/
theorem nextInSpan_faultsOrWrites {n : Nat} (h : nextInSpan n s (written i s) = .next t) : FaultsOrWrites i s t := by
  rcases nextInSpan_cases n s (written i s) with ⟨-, hnext⟩ | ⟨-, hfault⟩
  · cases hnext.symm.trans h
    exact .inr ⟨_, _, rfl⟩
  · cases hfault.symm.trans h
    exact .inl ⟨_, rfl⟩

/-- 8xy4 and 8xy5, with a flag or without, write the register file alone. -/
theorem withAddSubFlag_setV (s : State) (f b : Byte) (x : Nibble) :
    (withAddSubFlag s f).setV x b = { s with v := ((withAddSubFlag s f).setV x b).v } := by
  rcases withAddSubFlag_cases s f with heq | ⟨-, heq⟩
  · rw [heq, State.setV_eq]
  · rw [heq]
    rfl

/-- Said once for all 34 instructions: a fault is entered, or the writes are made, `PC` and `RUN` apart. -/
theorem exec_cases (h : exec i s = .next t) : FaultsOrWrites i s t := by
  cases i with
  | call nnn => exact execCall_cases h
  | ret => exact execRet_cases h
  | skp x => exact keySkip_cases (keyNamed s (s.getV x)) id rfl h
  | sknp x => exact keySkip_cases (keyNamed s (s.getV x)) (!·) rfl h
  | add | sub =>
    cases h
    exact .inr ⟨s.pc + 2, s.run, congrArg (State.advance · 2) (withAddSubFlag_setV s _ _ _)⟩
  | bcd | stm | ldm | drw => exact nextInSpan_faultsOrWrites h
  | _ =>
    cases h
    exact .inr ⟨_, _, rfl⟩

/-- What an instruction keeps: every part of the state but `PC`, `RUN` and the record that its writes keep. -/
theorem exec_keeps {α : Type} (part : State → α)
    (hpart : ∀ u pc run fault, part { u with pc := pc, run := run, fault := fault } = part u)
    (h : exec i s = .next t) (hwritten : part (written i s) = part s) : part t = part s := by
  rcases exec_cases h with ⟨f, rfl⟩ | ⟨pc, run, rfl⟩
  · exact hpart s _ _ _
  · exact (hpart (written i s) pc run _).trans hwritten

/-! ## Registers -/

/-- A register other than the one written reads as before. -/
theorem State.setV_getV_of_ne {x z : Nibble} (h : z ≠ x) (s : State) (b : Byte) : (s.setV x b).getV z = s.getV z := by
  rw [State.setV_getV, if_neg h.symm]

/-- The flag of 8xy4 and 8xy5 is VF, and it is written under `CARRY_BORROW` alone. -/
theorem withAddSubFlag_getV {z : Nibble} (h : ¬ (z = 15 ∧ s.params.addSubFlag = .carryBorrow)) (f : Byte) :
    (withAddSubFlag s f).getV z = s.getV z := by
  rcases withAddSubFlag_cases s f with heq | ⟨hp, heq⟩ <;> rw [heq]
  exact State.setV_getV_of_ne (fun hz => h ⟨hz, hp⟩) s f

/-- Both registers of a shift, and its flag before them, are written; every other register reads as before. -/
theorem shift_getV {x y z : Nibble} (h : ¬ (z = x ∨ z = y ∨ z = 15)) (f r : Byte) :
    (((s.setVF f).setV y r).setV x r).getV z = s.getV z := by
  obtain ⟨hx, hy, hf⟩ : z ≠ x ∧ z ≠ y ∧ z ≠ 15 := by simpa only [not_or] using h
  rw [State.setV_getV_of_ne hx, State.setV_getV_of_ne hy]
  exact State.setV_getV_of_ne hf s f

/-- A block load reads its bytes into the first registers alone. -/
theorem fillV_getV {x z : Nibble} (h : ¬ z.toNat ≤ x.toNat) (a : Nat) :
    (fillV s.v 0 (s.bytesFrom a (blockLength x)))[z.toNat] = s.getV z := by
  rw [getElem_fillV, if_neg]
  · rfl
  · rw [State.length_bytesFrom, blockLength]
    omega

/-- The writes of an instruction keep the registers that it may not write. -/
theorem written_getV {z : Nibble} (h : ¬ mayWriteV s.params i z) : (written i s).getV z = s.getV z := by
  cases i with
  | ldi | addi | mov | or | and | xor | gdt | rnd => exact State.setV_getV_of_ne h s _
  | add | sub =>
    obtain ⟨hx, hf⟩ := not_or.mp h
    exact (State.setV_getV_of_ne hx _ _).trans (withAddSubFlag_getV hf _)
  | subn =>
    obtain ⟨hx, hf⟩ := not_or.mp h
    exact (State.setV_getV_of_ne hx _ _).trans (State.setV_getV_of_ne hf s _)
  | shr | shl => exact shift_getV h _ _
  | ldm => exact fillV_getV h _
  | cls | ret | jp | call | sei | snei | se | sne | ldix | jp0 | drw | skp | sknp | keyw | sdt | sst | addix | font
  | bcd | stm => rfl

/-- Settles O54: the registers are kept by the writes, and neither a fault nor `PC` and `RUN` touch them. -/
theorem instructionsKeepOtherRegisters : Obligations.InstructionsKeepOtherRegisters := fun _ _ _ z h hz =>
  exec_keeps (·.getV z) (fun _ _ _ _ => rfl) h (written_getV hz)

/-! ## Memory -/

/-- Bytes written from `a` on are read from `a` on, and every other address as before. -/
theorem State.setBytesFrom_byteAt_outside {a c : Nat} {bs : List Byte} (h : c < a ∨ a + bs.length ≤ c) (s : State) :
    (s.setBytesFrom a bs).byteAt c = s.byteAt c := by
  rw [State.setBytesFrom_byteAt, if_neg (by omega)]

/-- The writes of an instruction keep the bytes outside the block it stores. -/
theorem written_byteAt {a : Nat} (h : a < s.i.toNat ∨ s.i.toNat + storedBytes i ≤ a) :
    (written i s).byteAt a = s.byteAt a := by
  cases i with
  | bcd x => exact State.setBytesFrom_byteAt_outside h s
  | stm x =>
    have hx : blockLength x ≤ 16 := x.isLt
    exact State.setBytesFrom_byteAt_outside (by rwa [State.length_firstV s _ hx]) s
  | _ => rfl

/-- Settles O55: the bytes are kept by the writes, and neither a fault nor `PC` and `RUN` touch them. -/
theorem instructionsKeepOtherMemory : Obligations.InstructionsKeepOtherMemory := fun _ _ _ a h ha =>
  exec_keeps (·.byteAt a) (fun _ _ _ _ => rfl) h (written_byteAt ha)

/-! ## The rest of the state -/

/-- `I` is written by Annn, Fx1E and Fx29 alone (R164). -/
theorem written_i (hldix : ∀ nnn, i ≠ .ldix nnn) (haddix : ∀ x, i ≠ .addix x) (hfont : ∀ x, i ≠ .font x) :
    (written i s).i = s.i := by
  cases i with
  | ldix nnn => exact absurd rfl (hldix nnn)
  | addix x => exact absurd rfl (haddix x)
  | font x => exact absurd rfl (hfont x)
  | _ => rfl

/-- `SP` is written by 2nnn and 00EE alone. -/
theorem written_sp (hcall : ∀ nnn, i ≠ .call nnn) (hret : i ≠ .ret) : (written i s).sp = s.sp := by
  cases i with
  | call nnn => exact absurd rfl (hcall nnn)
  | ret => exact absurd rfl hret
  | _ => rfl

/-- The stack is written by 2nnn alone. -/
theorem written_stack (hcall : ∀ nnn, i ≠ .call nnn) : (written i s).stack = s.stack := by
  cases i with
  | call nnn => exact absurd rfl (hcall nnn)
  | _ => rfl

/-- No slot but the one `SP` names is written. -/
theorem written_slot {k : Nat} (hk : k < 16) (hsp : k ≠ s.sp.toNat) : (written i s).stack[k] = s.stack[k] := by
  cases i with
  | call nnn => exact Vector.getElem_setIfInBounds_ne hk hsp.symm
  | _ => rfl

/-- The display is written by 00E0 and Dxyn alone. -/
theorem written_disp (hcls : i ≠ .cls) (hdrw : ∀ x y n, i ≠ .drw x y n) : (written i s).disp = s.disp := by
  cases i with
  | cls => exact absurd rfl hcls
  | drw x y n => exact absurd rfl (hdrw x y n)
  | _ => rfl

/-- `DT` is written by Fx15 alone. -/
theorem written_dt (hsdt : ∀ x, i ≠ .sdt x) : (written i s).dt = s.dt := by
  cases i with
  | sdt x => exact absurd rfl (hsdt x)
  | _ => rfl

/-- `ST` is written by Fx18 alone. -/
theorem written_st (hsst : ∀ x, i ≠ .sst x) : (written i s).st = s.st := by
  cases i with
  | sst x => exact absurd rfl (hsst x)
  | _ => rfl

/-- The draw counter is written by Cxnn alone. -/
theorem written_draws (hrnd : ∀ x nn, i ≠ .rnd x nn) : (written i s).draws = s.draws := by
  cases i with
  | rnd x nn => exact absurd rfl (hrnd x nn)
  | _ => rfl

/-- Whatever an instruction answers, it keeps `KEY`, `IR`, and the model's own fields but the draw counter. -/
theorem Answers.keeps (ha : Answers i s t) :
    t.key = s.key ∧ t.ir = s.ir ∧ t.started = s.started ∧ t.params = s.params ∧ t.schedule = s.schedule := by
  rcases ha with ⟨f, rfl⟩ | ⟨x, -, rfl⟩ | hc
  · exact ⟨rfl, rfl, rfl, rfl, rfl⟩
  · exact ⟨rfl, rfl, rfl, rfl, rfl⟩
  · exact ⟨hc.key, hc.ir, hc.started, hc.params, hc.schedule⟩

/-- Settles O56: what an instruction may write by `written`, and what none writes by `Answers`. -/
theorem instructionsKeepOtherState : Obligations.InstructionsKeepOtherState := by
  intro i s t h
  obtain ⟨hkey, hir, hstarted, hparams, hschedule⟩ := (answers_of_exec h).keeps
  exact ⟨fun hldix haddix hfont => exec_keeps (·.i) (fun _ _ _ _ => rfl) h (written_i hldix haddix hfont),
    fun hcall hret => exec_keeps (·.sp) (fun _ _ _ _ => rfl) h (written_sp hcall hret),
    fun hcall => exec_keeps (·.stack) (fun _ _ _ _ => rfl) h (written_stack hcall),
    fun k hk hsp => exec_keeps (·.stack[k]) (fun _ _ _ _ => rfl) h (written_slot hk hsp),
    fun hcls hdrw => exec_keeps (·.disp) (fun _ _ _ _ => rfl) h (written_disp hcls hdrw),
    fun hsdt => exec_keeps (·.dt) (fun _ _ _ _ => rfl) h (written_dt hsdt),
    fun hsst => exec_keeps (·.st) (fun _ _ _ _ => rfl) h (written_st hsst),
    hkey, hir, hstarted, hparams, hschedule,
    fun hrnd => exec_keeps (·.draws) (fun _ _ _ _ => rfl) h (written_draws hrnd)⟩

/-! ## The run state -/

/-- Settles O60: one case for each kind of answer. -/
theorem runStateChangesOnlyByWaitOrFault : Obligations.RunStateChangesOnlyByWaitOrFault := by
  intro i s t hrun h
  rcases answers_of_exec h with ⟨f, rfl⟩ | ⟨x, hi, rfl⟩ | hc
  · exact .inr (.inr ⟨_, rfl, rfl⟩)
  · exact .inr (.inl ⟨x, hi, rfl⟩)
  · exact .inl (hc.run.trans hrun)

end Sys2Proof.Machine
end

section
/-! Memory as a fetch and a block instruction see it (20_memory R63, R67, R68, R71, R75): the word at `PC` and its
faults, the range check before any effect, and a store that the next fetch reads. -/

namespace Sys2Proof.Machine

variable {s t : State}

/-! ## Fetch -/

/-- The byte at the lower address is the more significant one (R63). -/
theorem wordOfBytes_toNat (hi lo : Byte) : (wordOfBytes hi lo).toNat = hi.toNat * 256 + lo.toNat := by
  unfold wordOfBytes
  rw [BitVec.toNat_append, ← Nat.shiftLeft_add_eq_or_of_lt lo.isLt, Nat.shiftLeft_eq]

/-- A cycle whose fetch leaves memory enters the fault, in the state before any effect. -/
theorem cycle_beyond (h : 0xFFE < s.pc.toNat) :
    cycle s = .next (s.raised (.memoryFault (if s.pc.toNat < 0x1000 then 0x1000 else s.pc))) := by
  unfold cycle
  rw [fetch_beyond s h]
  rfl

/-- Settles O7: the fetch inside memory and beyond it, which at 0xFFF and above differ in the address recorded. -/
theorem fetchReadsHighByteFirst : Obligations.FetchReadsHighByteFirst := by
  refine fun s => ⟨fun hin => ?inside, fun hlast => ?last, fun hout => ?outside⟩
  case inside => exact ⟨_, fetch_inside s hin, wordOfBytes_toNat _ _⟩
  case last => rw [fetch_beyond s (by omega), if_pos (by omega)]
  case outside => rw [fetch_beyond s (by omega), if_neg (by omega)]

/-- Settles O11: the fault entry of the fetch beyond memory, which writes `RUN` and the record alone. -/
theorem fetchBeyondMemoryHaltsCore : Obligations.FetchBeyondMemoryHaltsCore := by
  intro s h
  rw [cycle_beyond h]
  simp only [Nat.lt_succ_iff]
  rfl

/-! ## Block instructions -/

/-- The lowest offending address of a block that leaves memory is `max(I, 0x1000)` (R68). -/
theorem max_lowest_offending (base : Word) :
    BitVec.ofNat 16 (max base.toNat 0x1000) = if base.toNat < 0x1000 then 0x1000 else base := by
  split
  · next h =>
    rw [max_eq_right h.le]
    rfl
  · next h => rw [max_eq_left (by omega), BitVec.ofNat_toNat, BitVec.setWidth_eq]

/-- No instruction's writes touch the fault record. -/
theorem written_fault (i : Instr) (s : State) : (written i s).fault = s.fault := by
  cases i <;> rfl

/-- No instruction's writes touch the run state. -/
theorem written_run (i : Instr) (s : State) : (written i s).run = s.run := by
  cases i <;> rfl

/-- Settles O45: each of the four instructions is its writes behind the range check of its block. -/
theorem blockRangeCheckedBeforeEffect : Obligations.BlockRangeCheckedBeforeEffect := by
  intro i n s hblock
  have hexec : exec i s = nextInSpan n s (written i s) := by
    rcases hblock with ⟨x, rfl, rfl⟩ | ⟨x, rfl, rfl⟩ | ⟨x, rfl, rfl⟩ | ⟨x, y, k, rfl, rfl⟩ <;> rfl
  have hmem : memSize = 0x1000 := rfl
  rw [hexec]
  refine ⟨fun ⟨hpos, hout⟩ => ?faults, fun hfits => ?completes⟩
  case faults => rw [nextInSpan_faults n s _ hpos (by omega), max_lowest_offending]
  case completes => exact ⟨_, nextInSpan_fits n s _ (by omega), written_run i s, written_fault i s⟩

/-! ## A store and the next fetch -/

/-- Fx55 stores `V[k]`, for `k` up to `x`, at `I + k`. -/
theorem written_stm_byteAt (s : State) {x k : Nibble} (hk : k.toNat ≤ x.toNat) :
    (written (.stm x) s).byteAt (s.i.toNat + k.toNat) = s.getV k := by
  have hlength : (s.firstV (blockLength x)).length = x.toNat + 1 := s.length_firstV (blockLength x) x.isLt
  have hread : (s.firstV (blockLength x))[k.toNat]? = some (s.getV k) :=
    s.getElem?_firstV (blockLength x) k.toNat (Nat.lt_succ_of_le hk) k.isLt
  unfold written
  rw [State.setBytesFrom_byteAt, if_pos (by omega), Nat.add_sub_cancel_left, hread, Option.getD_some]

/-- What the state after Fx55 holds, its block being in memory: `PC` two further, and the stored registers at `I`. -/
theorem exec_stm_stores {x : Nibble} (hfits : s.i.toNat + x.toNat ≤ 0xFFF) (h : exec (.stm x) s = .next t) :
    t.pc = s.pc + 2 ∧ ∀ k : Nibble, k.toNat ≤ x.toNat → t.byteAt (s.i.toNat + k.toNat) = s.getV k := by
  have hnext : exec (.stm x) s = .next ((written (.stm x) s).advance 2) :=
    nextInSpan_fits (blockLength x) s _ (.inr (Nat.succ_le_succ hfits))
  cases hnext.symm.trans h
  exact ⟨rfl, fun _ => written_stm_byteAt s⟩

/-- Settles O46: the fetch at `PC + 2` is the fetch at `I + k`, whose two bytes Fx55 has stored. -/
theorem storeSeenByNextFetch : Obligations.StoreSeenByNextFetch := by
  intro x k s t hfits hkx hcovers hexec
  obtain ⟨hpc, hstored⟩ := exec_stm_stores hfits hexec
  have hat : t.pc.toNat = s.i.toNat + k.toNat := by
    rw [hpc, BitVec.toNat_add_of_lt (by simp; omega)]
    exact hcovers
  have hsucc : (k + 1).toNat = k.toNat + 1 := BitVec.toNat_add_of_lt (by simp; omega)
  rw [fetch_inside t (by omega), hat, Nat.add_assoc, ← hsucc, hstored k (by omega), hstored (k + 1) (by omega)]

end Sys2Proof.Machine
end

section
/-! Encoding and decoding (30_encoding R92 to R98, R102): the decoder and the encoder are inverse to each other on the
legal words, the legal words are those of R95's table, and every one of them matches exactly one row of R97. -/

namespace Sys2Proof.Laws.EncodesItsRow

/-- The family EncodesItsRow over all 34 instructions. -/
theorem statement_all (i : Instr) : Statement i := by
  cases i <;> simp only [cls, ret, jp, call, sei, snei, se, ldi, addi, mov, or, and, xor, add, sub, shr, subn, shl, sne,
    ldix, jp0, rnd, drw, skp, sknp, gdt, keyw, sdt, sst, addix, font, bcd, stm, ldm]

end Sys2Proof.Laws.EncodesItsRow

namespace Sys2Proof

variable {w pat m : Word} {x y n : Nibble} {nn : Byte} {nnn : Addr12} {i : Instr}

/-! ## The decoder and its dispatch -/

/-- A word decodes to the instruction that the dispatch finds. -/
theorem decodeWord_ok_iff : decodeWord w = .ok i ↔ matchRow w = some i := by
  unfold decodeWord
  cases matchRow w <;> simp

/-- A word for which the dispatch finds nothing is refused with its family (R98). -/
theorem decodeWord_of_none (h : matchRow w = none) : decodeWord w = .error (.unknownInstruction w (opField w)) := by
  rw [decodeWord, h]

/-! ## From an instruction to its word and back

Each format is read back once, for the constructor `f` that the dispatch gives to the words of its pattern. -/

/-- Format `ADDR` reads back where the family alone decides. -/
theorem matchRow_encAddr {f : Addr12 → Instr} (hpat : nnnField pat = 0#12)
    (hrow : ∀ w, opField w = opField pat → matchRow w = some (f (nnnField w))) :
    matchRow (encAddr pat nnn) = some (f nnn) := by
  rw [hrow _ (opField_encAddr pat nnn), nnnField_encAddr, hpat, BitVec.zero_or]

/-- Format `REG_IMM` reads back where the family alone decides. -/
theorem matchRow_encRegImm {f : Nibble → Byte → Instr} (hx : xField pat = 0#4) (hnn : nnField pat = 0#8)
    (hrow : ∀ w, opField w = opField pat → matchRow w = some (f (xField w) (nnField w))) :
    matchRow (encRegImm pat x nn) = some (f x nn) := by
  rw [hrow _ (opField_encRegImm pat x nn), xField_encRegImm, nnField_encRegImm, hx, hnn, BitVec.zero_or,
    BitVec.zero_or]

/-- Format `REG_REG` reads back where the function code `n` decides in the family. -/
theorem matchRow_encRegReg {f : Nibble → Nibble → Instr} (hx : xField pat = 0#4) (hy : yField pat = 0#4)
    (hn : nField pat = 0#4)
    (hrow : ∀ w, opField w = opField pat → nField w = n → matchRow w = some (f (xField w) (yField w))) :
    matchRow (encRegReg pat x y n) = some (f x y) := by
  have hcode : nField (encRegReg pat x y n) = n := by rw [nField_encRegReg, hn, BitVec.zero_or]
  rw [hrow _ (opField_encRegReg pat x y n) hcode, xField_encRegReg, yField_encRegReg, hx, hy, BitVec.zero_or,
    BitVec.zero_or]

/-- Format `REG_FN` reads back where the function code, the low byte, decides in the family. -/
theorem matchRow_encRegFn {f : Nibble → Instr} (hx : xField pat = 0#4)
    (hrow : ∀ w, opField w = opField pat → nnField w = nnField pat → matchRow w = some (f (xField w))) :
    matchRow (encRegFn pat x) = some (f x) := by
  rw [hrow _ (opField_encRegFn pat x) (nnField_encRegFn pat x), xField_encRegFn, hx, BitVec.zero_or]

/-- Format `REG_REG` reads back where the family alone decides and `n` is the literal. -/
theorem matchRow_encRegReg_literal {f : Nibble → Nibble → Nibble → Instr} (hx : xField pat = 0#4)
    (hy : yField pat = 0#4) (hn : nField pat = 0#4)
    (hrow : ∀ w, opField w = opField pat → matchRow w = some (f (xField w) (yField w) (nField w))) :
    matchRow (encRegReg pat x y n) = some (f x y n) := by
  rw [hrow _ (opField_encRegReg pat x y n), xField_encRegReg, yField_encRegReg, nField_encRegReg, hx, hy, hn,
    BitVec.zero_or, BitVec.zero_or, BitVec.zero_or]

/-- The dispatch reads every instruction back from its word. -/
theorem matchRow_encode (i : Instr) : matchRow (encode i) = some i := by
  cases i with
  | cls | ret => rfl
  | jp | call | ldix | jp0 => exact matchRow_encAddr rfl fun w hop => by rw [matchRow, hop]; rfl
  | sei | snei | ldi | addi | rnd => exact matchRow_encRegImm rfl rfl fun w hop => by rw [matchRow, hop]; rfl
  | se | sne | mov | or | and | xor | add | sub | shr | subn | shl =>
    exact matchRow_encRegReg rfl rfl rfl fun w hop hn => by
      rw [matchRow, hop, decodeFamily5, decodeFamily8, decodeFamily9, hn]; rfl
  | drw => exact matchRow_encRegReg_literal rfl rfl rfl fun w hop => by rw [matchRow, hop]; rfl
  | skp | sknp | gdt | keyw | sdt | sst | addix | font | bcd | stm | ldm =>
    exact matchRow_encRegFn rfl fun w hop hnn => by rw [matchRow, hop, decodeFamilyE, decodeFamilyF, hnn]; rfl

/-- The decoder reads every instruction back from its word. -/
theorem decodeWord_encode (i : Instr) : decodeWord (encode i) = .ok i :=
  decodeWord_ok_iff.mpr (matchRow_encode i)

/-- Settles O1: format by format, every operand read back from its field. -/
theorem decodeReadsBackEncode : Obligations.DecodeReadsBackEncode := fun i _ => decodeWord_encode i

/-- Settles O6: each word is, bit for bit, the encoding of its instruction. -/
theorem spelledOutWordsDecode : Obligations.SpelledOutWordsDecode :=
  ⟨decodeWord_encode .cls, decodeWord_encode (.call 0x20A), decodeWord_encode (.sei 0x5 0x2A),
    decodeWord_encode (.shl 0x3 0x1), decodeWord_encode (.ldix 0x2F0), decodeWord_encode (.drw 0x0 0x1 0x2),
    decodeWord_encode (.skp 0x2), decodeWord_encode (.stm 0x2)⟩

/-! ## From a word to its instruction and back

A word is its fields (Laws/Encode); where the family, and the function code if there is one, are known, the fields left
are the operands. -/

/-- A word of format `ADDR` is its family's pattern and `nnn`. -/
theorem encAddr_of_op (hop : (opField w).toNat = (opField pat).toNat)
    (hpat : (opField pat).setWidth 16 <<< 12 = pat) : encAddr pat (nnnField w) = w := by
  rw [← hpat, ← BitVec.eq_of_toNat_eq hop, encAddr_fields]

/-- A word of format `REG_IMM` is its family's pattern, `x` and `nn`. -/
theorem encRegImm_of_op (hop : (opField w).toNat = (opField pat).toNat)
    (hpat : (opField pat).setWidth 16 <<< 12 = pat) : encRegImm pat (xField w) (nnField w) = w := by
  rw [← hpat, ← BitVec.eq_of_toNat_eq hop, encRegImm_fields]

/-- A word of format `REG_REG` is its family's pattern, `x`, `y` and `n`. -/
theorem encRegReg_of_op (hop : (opField w).toNat = (opField pat).toNat)
    (hpat : (opField pat).setWidth 16 <<< 12 = pat) (hn : nField w = n) :
    encRegReg pat (xField w) (yField w) n = w := by
  rw [← hpat, ← BitVec.eq_of_toNat_eq hop, ← hn, encRegReg_fields]

/-- A word of format `REG_FN` is its family and function code, and `x`. -/
theorem encRegFn_of_op (hop : (opField w).toNat = (opField pat).toNat) (hnn : nnField w = nnField pat)
    (hpat : (opField pat).setWidth 16 <<< 12 ||| (nnField pat).setWidth 16 = pat) : encRegFn pat (xField w) = w := by
  rw [← hpat, ← BitVec.eq_of_toNat_eq hop, ← hnn, encRegFn_fields]

/-- Family 0 has no operand: a word of it is `nnn`. -/
theorem eq_setWidth_nnnField (hop : (opField w).toNat = 0) : w = (nnnField w).setWidth 16 := by
  have h : encAddr 0#16 (nnnField w) = w := encAddr_of_op hop rfl
  rw [encAddr, BitVec.zero_or] at h
  exact h.symm

/-- An instruction of family 0 encodes to the word it was found in. -/
theorem encode_of_decodeFamily0 (hop : (opField w).toNat = 0x0) (h : decodeFamily0 w = some i) : encode i = w := by
  rw [eq_setWidth_nnnField hop]
  unfold decodeFamily0 at h
  split at h
  case isTrue hnnn =>
    cases h
    rw [hnnn]
    rfl
  case isFalse =>
    obtain ⟨hnnn, hi⟩ := Option.ite_none_right_eq_some.mp h
    cases hi
    rw [hnnn]
    rfl

/-- An instruction of family 5 encodes to the word it was found in. -/
theorem encode_of_decodeFamily5 (hop : (opField w).toNat = 0x5) (h : decodeFamily5 w = some i) : encode i = w := by
  obtain ⟨hn, hi⟩ := Option.ite_none_right_eq_some.mp h
  cases hi
  exact encRegReg_of_op hop rfl hn

/-- An instruction of family 8 encodes to the word it was found in. -/
theorem encode_of_decodeFamily8 (hop : (opField w).toNat = 0x8) (h : decodeFamily8 w = some i) : encode i = w := by
  unfold decodeFamily8 at h
  split at h <;> cases h
  all_goals
    next hn => exact encRegReg_of_op hop rfl (BitVec.eq_of_toNat_eq hn)

/-- An instruction of family 9 encodes to the word it was found in. -/
theorem encode_of_decodeFamily9 (hop : (opField w).toNat = 0x9) (h : decodeFamily9 w = some i) : encode i = w := by
  obtain ⟨hn, hi⟩ := Option.ite_none_right_eq_some.mp h
  cases hi
  exact encRegReg_of_op hop rfl hn

/-- An instruction of family E encodes to the word it was found in. -/
theorem encode_of_decodeFamilyE (hop : (opField w).toNat = 0xE) (h : decodeFamilyE w = some i) : encode i = w := by
  unfold decodeFamilyE at h
  repeat' split at h
  all_goals cases h
  all_goals exact encRegFn_of_op hop ‹_› rfl

/-- An instruction of family F encodes to the word it was found in. -/
theorem encode_of_decodeFamilyF (hop : (opField w).toNat = 0xF) (h : decodeFamilyF w = some i) : encode i = w := by
  unfold decodeFamilyF at h
  repeat' split at h
  all_goals cases h
  all_goals exact encRegFn_of_op hop ‹_› rfl

/-- The instruction that the dispatch finds in a word encodes to that word. -/
theorem encode_of_matchRow (h : matchRow w = some i) : encode i = w := by
  unfold matchRow at h
  split at h
  case h_1 hop => exact encode_of_decodeFamily0 hop h
  case h_6 hop => exact encode_of_decodeFamily5 hop h
  case h_9 hop => exact encode_of_decodeFamily8 hop h
  case h_10 hop => exact encode_of_decodeFamily9 hop h
  case h_15 hop => exact encode_of_decodeFamilyE hop h
  case h_16 hop => exact encode_of_decodeFamilyF hop h
  case h_17 => cases h
  all_goals cases h
  case h_2 hop | h_3 hop | h_11 hop | h_12 hop => exact encAddr_of_op hop rfl
  case h_4 hop | h_5 hop | h_7 hop | h_8 hop | h_13 hop => exact encRegImm_of_op hop rfl
  case h_14 hop => exact encRegReg_of_op hop rfl rfl

/-- Settles O2: family by family, the word is the pattern and the operands read from it. -/
theorem encodeReadsBackDecode : Obligations.EncodeReadsBackDecode := fun _ _ h =>
  encode_of_matchRow (decodeWord_ok_iff.mp h)

/-! ## The legal words (R95) -/

/-- Family 0 accepts by `nnn`. -/
theorem decodeFamily0_isSome (w : Word) :
    (decodeFamily0 w).isSome = ((nnnField w).toNat == 0x0E0 || (nnnField w).toNat == 0x0EE) := by
  rw [decodeFamily0, Bool.eq_iff_iff]
  simp only [BitVec.toNat_eq]
  split <;> simp_all

/-- Family 5 accepts by `n`. -/
theorem decodeFamily5_isSome (w : Word) : (decodeFamily5 w).isSome = ((nField w).toNat == 0) := by
  rw [decodeFamily5, Bool.eq_iff_iff]
  simp [BitVec.toNat_eq]

/-- Family 8 accepts by `n`. -/
theorem decodeFamily8_isSome (w : Word) :
    (decodeFamily8 w).isSome = (decide ((nField w).toNat ≤ 7) || (nField w).toNat == 0xE) := by
  unfold decodeFamily8
  generalize (nField w).toNat = k
  split
  case h_10 =>
    simp only [imp_false] at *
    simp
    omega
  all_goals rfl

/-- Family 9 accepts by `n`. -/
theorem decodeFamily9_isSome (w : Word) : (decodeFamily9 w).isSome = ((nField w).toNat == 0) := by
  rw [decodeFamily9, Bool.eq_iff_iff]
  simp [BitVec.toNat_eq]

/-- Family E accepts by `nn`. -/
theorem decodeFamilyE_isSome (w : Word) :
    (decodeFamilyE w).isSome = ((nnField w).toNat == 0x9E || (nnField w).toNat == 0xA1) := by
  rw [decodeFamilyE, Bool.eq_iff_iff]
  simp only [BitVec.toNat_eq]
  split <;> simp_all

/-- Family F accepts by `nn`. -/
theorem decodeFamilyF_isSome (w : Word) :
    (decodeFamilyF w).isSome =
      [0x07, 0x0A, 0x15, 0x18, 0x1E, 0x29, 0x33, 0x55, 0x65].contains (nnField w).toNat := by
  rw [decodeFamilyF, Bool.eq_iff_iff]
  simp only [BitVec.toNat_eq]
  repeat' split
  all_goals simp_all

/-- The dispatch finds an instruction in exactly the legal words. -/
theorem matchRow_isSome (w : Word) : (matchRow w).isSome = legalWord w := by
  obtain ⟨hw, -, -, hn, hnn, hnnn⟩ := fields_toNat w
  simp only [legalWord, ← hw, ← hn, ← hnn, ← hnnn]
  unfold matchRow
  split
  case h_1 hop => rw [hop]; exact decodeFamily0_isSome w
  case h_6 hop => rw [hop]; exact decodeFamily5_isSome w
  case h_9 hop => rw [hop]; exact decodeFamily8_isSome w
  case h_10 hop => rw [hop]; exact decodeFamily9_isSome w
  case h_15 hop => rw [hop]; exact decodeFamilyE_isSome w
  case h_16 hop => rw [hop]; exact decodeFamilyF_isSome w
  case h_17 =>
    have hlt := (opField w).isLt
    simp only [imp_false] at *
    omega
  all_goals next hop => rw [hop]; rfl

/-- Settles O3: the dispatch answers exactly where the table does. -/
theorem decodeAcceptsExactlyLegalWords : Obligations.DecodeAcceptsExactlyLegalWords := by
  intro w
  rw [← matchRow_isSome]
  refine ⟨fun hlegal => ?accepted, fun hillegal => ?refused⟩
  case accepted =>
    obtain ⟨i, hi⟩ := Option.isSome_iff_exists.mp hlegal
    exact ⟨i, decodeWord_ok_iff.mpr hi⟩
  case refused => exact decodeWord_of_none (Option.isNone_iff_eq_none.mp (Option.isSome_eq_false_iff.mp hillegal))

/-! ## The rows (R96, R97)

A row's mask covers the family, and the function code of a format that has one: what the dispatch looks at. -/

/-- A field that lies inside the mask reads in the word as in the pattern. -/
theorem extractLsb'_of_masked {mask : Word} {start len : Nat} (hmask : mask.extractLsb' start len = BitVec.allOnes len)
    (h : w &&& mask = m) : w.extractLsb' start len = m.extractLsb' start len := by
  rw [← h, BitVec.extractLsb'_and, hmask, BitVec.and_allOnes]

/-- In a word of an instruction's row the dispatch finds an instruction of that row. -/
theorem row_matchRow_of_masked (i : Instr) (h : w &&& i.row.2 = i.row.1) : (matchRow w).map Instr.row = some i.row := by
  cases i <;> simp only [Instr.row] at h
  case cls | ret =>
    rw [show w = _ from BitVec.and_allOnes.symm.trans h]
    rfl
  all_goals have hop : opField w = opField _ := extractLsb'_of_masked rfl h
  case jp | call | sei | snei | ldi | addi | ldix | jp0 | rnd | drw =>
    rw [matchRow, hop]
    rfl
  case se | sne | mov | or | and | xor | add | sub | shr | subn | shl =>
    have hn : nField w = nField _ := extractLsb'_of_masked rfl h
    rw [matchRow, hop, decodeFamily5, decodeFamily8, decodeFamily9, hn]
    rfl
  case skp | sknp | gdt | keyw | sdt | sst | addix | font | bcd | stm | ldm =>
    have hnn : nnField w = nnField _ := extractLsb'_of_masked rfl h
    rw [matchRow, hop, decodeFamilyE, decodeFamilyF, hnn]
    rfl

/-- Every row of the map is an instruction's. -/
theorem exists_row_of_mem {r : Word × Word} (h : r ∈ opcodeRows) : ∃ i : Instr, i.row = r := by
  have hrows : opcodeRows = [.cls, .ret, .jp 0, .call 0, .sei 0 0, .snei 0 0, .se 0 0, .ldi 0 0, .addi 0 0, .mov 0 0,
    .or 0 0, .and 0 0, .xor 0 0, .add 0 0, .sub 0 0, .shr 0 0, .subn 0 0, .shl 0 0, .sne 0 0, .ldix 0, .jp0 0,
    .rnd 0 0, .drw 0 0 0, .skp 0, .sknp 0, .gdt 0, .keyw 0, .sdt 0, .sst 0, .addix 0, .font 0, .bcd 0, .stm 0,
    .ldm 0].map Instr.row := rfl
  rw [hrows] at h
  obtain ⟨i, -, hi⟩ := List.mem_map.mp h
  exact ⟨i, hi⟩

/-- A word matches the row of the instruction that it decodes to. -/
theorem row_of_decodeWord (h : decodeWord w = .ok i) : w &&& i.row.2 = i.row.1 := by
  obtain ⟨-, -, hrow⟩ := Laws.EncodesItsRow.statement_all i
  rwa [encode_of_matchRow (decodeWord_ok_iff.mp h)] at hrow

/-- Settles O5: a row's instructions are found by its mask, and each encodes to a word of its row. -/
theorem wordIsInstructionOfMatchedRow : Obligations.WordIsInstructionOfMatchedRow := by
  refine ⟨rfl, fun w r hr => ⟨fun hmatch => ?found, fun hdecoded => ?matched⟩⟩
  case found =>
    obtain ⟨i, rfl⟩ := exists_row_of_mem hr
    obtain ⟨j, hj, hrow⟩ := Option.map_eq_some_iff.mp (row_matchRow_of_masked i hmatch)
    exact ⟨j, decodeWord_ok_iff.mpr hj, hrow⟩
  case matched =>
    obtain ⟨i, hi, rfl⟩ := hdecoded
    exact row_of_decodeWord hi

/-- Settles O4: both rows are the row of the one instruction that the word decodes to. -/
theorem noWordMatchesTwoRows : Obligations.NoWordMatchesTwoRows := by
  intro w r r' hr hr' hmatch hmatch'
  obtain ⟨-, hdecoded⟩ := wordIsInstructionOfMatchedRow
  obtain ⟨i, hi, hrow⟩ := (hdecoded w r hr).mp (beq_iff_eq.mp hmatch)
  obtain ⟨i', hi', hrow'⟩ := (hdecoded w r' hr').mp (beq_iff_eq.mp hmatch')
  cases hi.symm.trans hi'
  exact hrow.symm.trans hrow'

end Sys2Proof
end

section
/-! Control transfer (40_control_flow R120 to R128): the default advance, jumps, the stack controller's call and return,
and the skips on a comparison. -/

namespace Sys2Proof.Machine

variable {s t u : State}

/-! ## Call and return -/

/-- 2nnn with a free slot: the call's own address is pushed and `PC` jumps (R123). -/
theorem exec_call_free (nnn : Addr12) (h : s.sp.toNat < 16) : exec (.call nnn) s =
    .next { s with stack := s.stack.set s.sp.toNat s.pc h, sp := s.sp + 1, pc := zextAddr nnn } := by
  rw [exec, execCall, State.push_free s s.pc h]
  rfl

/-- 2nnn with the stack full (R212). -/
theorem exec_call_full (nnn : Addr12) (h : 16 ≤ s.sp.toNat) :
    exec (.call nnn) s = .next (s.raised (.stackOverflow s.ir)) := by
  rw [exec, execCall, State.push_full s s.pc h]
  rfl

/-- 00EE with a live slot: `PC` resumes two past the popped address (R121). -/
theorem exec_ret_live (h : 0 < s.sp.toNat) (h' : s.sp.toNat ≤ 16) : exec .ret s =
    .next { s with sp := s.sp - 1, pc := s.stack[s.sp.toNat - 1]'(by omega) + 2 } := by
  rw [exec, execRet, State.pop_live s h h']
  rfl

/-- 00EE with the stack empty (R213). -/
theorem exec_ret_empty (h : s.sp.toNat = 0) : exec .ret s = .next (s.raised (.stackUnderflow s.ir)) := by
  rw [exec, execRet, State.pop_none s (.inl h)]
  rfl

/-- Settles O25: the two cases of the push. -/
theorem callPushesOwnAddress : Obligations.CallPushesOwnAddress := fun nnn _ =>
  ⟨exec_call_free nnn, fun hfull => exec_call_full nnn hfull.ge⟩

/-- Settles O26: the two cases of the pop. -/
theorem returnResumesAfterCall : Obligations.ReturnResumesAfterCall := fun _ => ⟨exec_ret_live, exec_ret_empty⟩

/-- `SP` counts up by one, without wrapping, while a slot is free. -/
theorem toNat_sp_succ {sp : Byte} (h : sp.toNat < 16) : (sp + 1).toNat = sp.toNat + 1 :=
  BitVec.toNat_add_of_lt (Nat.lt_of_lt_of_le (Nat.add_lt_add_right h 1) (by decide))

/-- 00EE in a state as a call leaves it, the address `w` on top of the stack (R121): it resumes after the call, at the
`SP` before it. -/
theorem exec_ret_pushed {stack : Vector Word 16} {sp : Byte} {w : Word} (h : sp.toNat < 16) :
    exec .ret { s with stack := stack.set sp.toNat w h, sp := sp + 1 } =
      .next { s with stack := stack.set sp.toNat w h, sp := sp, pc := w + 2 } := by
  have hsp := toNat_sp_succ h
  rw [exec_ret_live (by simp only [hsp]; omega) (by simp only [hsp]; omega)]
  simp only [hsp, Nat.add_sub_cancel, Vector.getElem_set_self, BitVec.add_sub_cancel]

/-- Settles O27: the call pushes its own address, and the return finds it on top. -/
theorem callThenReturnNetsPlusTwo : Obligations.CallThenReturnNetsPlusTwo := by
  intro nnn s h
  refine ⟨_, _, exec_call_free nnn h, rfl, exec_ret_pushed (s := { s with pc := zextAddr nnn }) h, rfl, fun k hk => ?_⟩
  simp only [Vector.getElem_set, eq_comm]

/-! ## Jumps -/

/-- Settles O24: the jump's literal, widened with zeros, is all that 1nnn writes. -/
theorem jumpSetsPc : Obligations.JumpSetsPc := fun _ _ => rfl

/-- The target of Bnnn as a number: 0x0FFF + 0xFF is far below 65536, so the sum never wraps (R128). -/
theorem indexedTarget_toNat (s : State) (nnn : Addr12) :
    (indexedTarget s nnn).toNat = nnn.toNat + (s.getV 0).toNat := by
  have hnnn := nnn.isLt
  have hv0 := (s.getV 0).isLt
  rw [indexedTarget, zextAddr, zextByte, BitVec.toNat_add, BitVec.toNat_setWidth, BitVec.toNat_setWidth]
  omega

/-- Settles O30: Bnnn writes its target to `PC` and nothing else. -/
theorem indexedJumpAddsV0 : Obligations.IndexedJumpAddsV0 := fun nnn s =>
  ⟨s.jumpTo (indexedTarget s nnn), rfl, rfl, indexedTarget_toNat s nnn⟩

/-! ## Skips on a comparison -/

/-- A skip on equality. -/
theorem skipIf_beq (a b : Byte) (s : State) :
    skipIf (a == b) s = .next { s with pc := if a = b then s.pc + 4 else s.pc + 2 } := by
  by_cases h : a = b <;> simp [skipIf, State.advance, h]

/-- A skip on inequality. -/
theorem skipIf_bne (a b : Byte) (s : State) :
    skipIf (a != b) s = .next { s with pc := if a = b then s.pc + 2 else s.pc + 4 } := by
  by_cases h : a = b <;> simp [skipIf, State.advance, h]

/-- Settles O28: the comparison is with the literal byte. -/
theorem skipOnByteCompare : Obligations.SkipOnByteCompare := fun x nn s =>
  ⟨skipIf_beq (s.getV x) nn s, skipIf_bne (s.getV x) nn s⟩

/-- Settles O29: the comparison is with the other register. -/
theorem skipOnRegisterCompare : Obligations.SkipOnRegisterCompare := fun x y s =>
  ⟨skipIf_beq (s.getV x) (s.getV y) s, skipIf_bne (s.getV x) (s.getV y) s⟩

/-! ## The default advance -/

/-- Fault entry halts the core. -/
theorem State.raised_isHalted (s : State) (f : CoreFault) : (s.raised f).isHalted := ⟨f.cause, rfl⟩

/-- The flag of 8xy4 and 8xy5 leaves `PC` alone. -/
theorem withAddSubFlag_pc (s : State) (f : Byte) : (withAddSubFlag s f).pc = s.pc := by
  rcases withAddSubFlag_cases s f with heq | ⟨-, heq⟩ <;> rw [heq]
  rfl

/-- A block instruction that does not fault advances by two, its writes having left `PC` alone. -/
theorem nextInSpan_pc {n : Nat} (h : nextInSpan n s t = .next u) (hpc : t.pc = s.pc) (hu : ¬ u.isHalted) :
    u.pc = s.pc + 2 := by
  rcases nextInSpan_cases n s t with ⟨-, hnext⟩ | ⟨-, hfault⟩
  · cases hnext.symm.trans h
    exact congrArg (· + 2) hpc
  · cases hfault.symm.trans h
    exact absurd (s.raised_isHalted _) hu

/-- Settles O57: such an instruction ends in `next`, on a state whose `PC` its writes have not moved. -/
theorem otherInstructionsAdvanceByTwo : Obligations.OtherInstructionsAdvanceByTwo := by
  intro i s t hi h ht
  cases i with
  | jp | call | jp0 | ret | keyw | sei | snei | se | sne | skp | sknp => exact absurd trivial hi
  | bcd | stm | ldm | drw => exact nextInSpan_pc h rfl ht
  | add | sub =>
    cases h
    exact congrArg (· + 2) (withAddSubFlag_pc s _)
  | cls | ldi | addi | mov | or | and | xor | shr | subn | shl | ldix | rnd | gdt | sdt | sst | addix | font =>
    cases h
    rfl

end Sys2Proof.Machine
end

section
/-! Register loads and the ALU (41_register_alu R140 to R153): what the flags and the shifted bytes are as numbers, and
each flag-writing instruction as its writes in the order the rules print them (R152), the flag first. -/

namespace Sys2Proof.Machine

variable {s : State} {x y : Nibble} {f : Byte}

/-! ## Bytes as numbers -/

/-- A flag on a condition is 1 or 0. -/
theorem flagOf_decide (p : Prop) [Decidable p] : flagOf (decide p) = if p then 1 else 0 := by
  simp only [flagOf, decide_eq_true_eq]

/-- The bit that 8xy6 shifts out is the remainder by 2 (R148). -/
theorem shrFlag_eq_mod (b : Byte) : shrFlag b = BitVec.ofNat 8 (b.toNat % 2) := by
  have hmod : (shrFlag b).toNat = b.toNat % 2 := by
    rw [shrFlag, BitVec.toNat_and]
    exact Nat.and_one_is_mod _
  rw [← hmod, BitVec.ofNat_toNat, BitVec.setWidth_eq]

/-- A byte shifted right by one is its half (R148). -/
theorem shiftedRight_eq_div (b : Byte) : shiftedRight b = BitVec.ofNat 8 (b.toNat / 2) := by
  have hdiv : (shiftedRight b).toNat = b.toNat / 2 := by
    rw [shiftedRight, BitVec.toNat_ushiftRight, Nat.shiftRight_eq_div_pow, Nat.pow_one]
  rw [← hdiv, BitVec.ofNat_toNat, BitVec.setWidth_eq]

/-- The flag of 8xyE is bit 3 in its own place, as the number 8 (R150). -/
theorem shlFlag_eq_ite (b : Byte) : shlFlag b = if b.getLsbD 3 then 0x08 else 0x00 :=
  BitVec.and_twoPow b 3

/-- A byte shifted left by one is its double, reduced to a byte (R150). -/
theorem shiftedLeft_eq_two_mul (b : Byte) : shiftedLeft b = 2 * b := by
  rw [shiftedLeft, BitVec.shiftLeft_eq_mul_twoPow, BitVec.mul_comm]
  rfl

/-- A byte shifted left by one is its double modulo 256 (R150). -/
theorem shiftedLeft_eq_mod (b : Byte) : shiftedLeft b = BitVec.ofNat 8 (b.toNat * 2 % 256) := by
  rw [shiftedLeft_eq_two_mul]
  bv_omega

/-- The sum of two bytes is the sum of their numbers modulo 256 (R151). -/
theorem add_eq_ofNat_mod (a b : Byte) : a + b = BitVec.ofNat 8 ((a.toNat + b.toNat) % 256) := by
  bv_omega

/-- The flag of 8xy6 shifted in its turn leaves nothing: `(F & 1) >> 1 = 0` (R153). -/
theorem shiftedRight_shrFlag (b : Byte) : shiftedRight (shrFlag b) = 0 := by
  rw [shiftedRight, shrFlag, BitVec.ushiftRight_and_distrib]
  exact BitVec.and_zero

/-! ## Instructions that write no flag -/

/-- Settles O31: each writes its operand to `V[x]` and ends in `next`. -/
theorem loadByteAndCopy : Obligations.LoadByteAndCopy := fun _ _ _ _ => ⟨rfl, rfl⟩

/-- Settles O32: the sum of bytes is the sum of numbers modulo 256. -/
theorem addByteWrapsWithoutFlag : Obligations.AddByteWrapsWithoutFlag := by
  intro x nn s
  rw [← add_eq_ofNat_mod]
  rfl

/-- Settles O33: each writes its result to `V[x]` and ends in `next`. -/
theorem logicalOpsWriteNoFlag : Obligations.LogicalOpsWriteNoFlag := fun _ _ _ => ⟨rfl, rfl, rfl⟩

/-! ## A flag, then one register -/

/-- What is read after the flag write: the flag where the register is VF. -/
theorem State.setVF_getV_ite (s : State) (z : Nibble) (f : Byte) :
    (s.setVF f).getV z = if z = 15 then f else s.getV z := by
  rw [State.setVF_getV]
  simp only [eq_comm]

/-- The flag of `V[x]` and `V[y]` is written to VF, then their result, as they then stand, to `V[x]`. -/
def flagThenResult (op flag : Byte → Byte → Byte) (x y : Nibble) (s : State) : State :=
  let t := s.setVF (flag (s.getV x) (s.getV y))
  t.setV x (op (t.getV x) (t.getV y))

section
variable {op flag : Byte → Byte → Byte}

/-- The writes with the operands named by the state before them. -/
theorem flagThenResult_eq (hf : flag (s.getV x) (s.getV y) = f) :
    flagThenResult op flag x y s =
      (s.setV 15 f).setV x (op (if x = 15 then f else s.getV x) (if y = 15 then f else s.getV y)) := by
  rw [← s.setVF_getV_ite x f, ← s.setVF_getV_ite y f, ← hf]
  rfl

/-- The destination reads the result. -/
theorem flagThenResult_getV_dest (hf : flag (s.getV x) (s.getV y) = f) :
    (flagThenResult op flag x y s).getV x = op (if x = 15 then f else s.getV x) (if y = 15 then f else s.getV y) := by
  rw [flagThenResult_eq hf, State.setV_getV, if_pos rfl]

/-- VF reads the flag where it is not the destination. -/
theorem flagThenResult_getV_vf (hx : x ≠ 15) :
    (flagThenResult op flag x y s).getV 15 = flag (s.getV x) (s.getV y) := by
  rw [flagThenResult_eq rfl, State.setV_getV_of_ne hx.symm, State.setV_getV, if_pos rfl]

/-- The common form of 8xy4 and 8xy5: the setting decides whether the flag is written before the result. -/
def addSubResult (op flag : Byte → Byte → Byte) (x y : Nibble) (s : State) : State :=
  let t := withAddSubFlag s (flag (s.getV x) (s.getV y))
  t.setV x (op (t.getV x) (t.getV y))

/-- Under `NONE` the result alone is written. -/
theorem addSubResult_none (h : s.params.addSubFlag = .none) :
    addSubResult op flag x y s = s.setV x (op (s.getV x) (s.getV y)) := by
  unfold addSubResult
  rw [withAddSubFlag_none s _ h]

/-- Under `CARRY_BORROW` the flag is written, then the result. -/
theorem addSubResult_carryBorrow (h : s.params.addSubFlag = .carryBorrow) :
    addSubResult op flag x y s = flagThenResult op flag x y s := by
  unfold addSubResult flagThenResult
  rw [withAddSubFlag_carryBorrow s _ h]

end

/-- 8xy4 (R146). -/
theorem exec_add (x y : Nibble) (s : State) : exec (.add x y) s = next (addSubResult (· + ·) addFlag x y s) := rfl

/-- 8xy5 (R147). -/
theorem exec_sub (x y : Nibble) (s : State) : exec (.sub x y) s = next (addSubResult (· - ·) subFlag x y s) := rfl

/-- 8xy7 subtracts the other way round (R149). -/
theorem exec_subn (x y : Nibble) (s : State) :
    exec (.subn x y) s = next (flagThenResult (fun a b => b - a) subnFlag x y s) := rfl

/-- Settles O34: the flag under `CARRY_BORROW` is the carry. -/
theorem addRegistersUnderBothSettings : Obligations.AddRegistersUnderBothSettings := fun x y s =>
  ⟨fun hnone => (exec_add x y s).trans (congrArg next (addSubResult_none hnone)),
   fun hcarry _ hf => (exec_add x y s).trans (congrArg next
     ((addSubResult_carryBorrow hcarry).trans (flagThenResult_eq ((flagOf_decide _).trans hf.symm))))⟩

/-- Settles O35: the flag under `CARRY_BORROW` is the strict comparison. -/
theorem subtractRegistersUnderBothSettings : Obligations.SubtractRegistersUnderBothSettings := fun x y s =>
  ⟨fun hnone => (exec_sub x y s).trans (congrArg next (addSubResult_none hnone)),
   fun hcarry _ hf => (exec_sub x y s).trans (congrArg next
     ((addSubResult_carryBorrow hcarry).trans (flagThenResult_eq ((flagOf_decide _).trans hf.symm))))⟩

/-- Settles O37: the strict comparison first, then the difference. -/
theorem reverseSubtractFlagsStrictGreater : Obligations.ReverseSubtractFlagsStrictGreater := fun x y s _ hf =>
  (exec_subn x y s).trans (congrArg next (flagThenResult_eq ((flagOf_decide _).trans hf.symm)))

/-! ## A flag, then both registers -/

/-- The flag of `V[y]` is written to VF, then `V[y]`, as it then stands, is shifted into `V[y]` and `V[x]`. -/
def flagThenShift (shift flag : Byte → Byte) (x y : Nibble) (s : State) : State :=
  let t := s.setVF (flag (s.getV y))
  (t.setV y (shift (t.getV y))).setV x (shift (t.getV y))

section
variable {shift flag : Byte → Byte}

/-- The writes with the operand named by the state before them. -/
theorem flagThenShift_eq {r : Byte} (hf : flag (s.getV y) = f) (hr : shift (if y = 15 then f else s.getV y) = r) :
    flagThenShift shift flag x y s = ((s.setV 15 f).setV y r).setV x r := by
  rw [← hr, ← s.setVF_getV_ite y f, ← hf]
  rfl

/-- Both registers of a shift read the result. -/
theorem flagThenShift_getV {z : Nibble} (hz : z = x ∨ z = y) :
    (flagThenShift shift flag x y s).getV z = shift (if y = 15 then flag (s.getV y) else s.getV y) := by
  rw [flagThenShift_eq rfl rfl, State.setV_getV]
  split
  · rfl
  · next hx => rw [hz.resolve_left (Ne.symm hx), State.setV_getV, if_pos rfl]

/-- VF reads the flag where neither register is VF. -/
theorem flagThenShift_getV_vf (hx : x ≠ 15) (hy : y ≠ 15) :
    (flagThenShift shift flag x y s).getV 15 = flag (s.getV y) := by
  rw [flagThenShift_eq rfl rfl, State.setV_getV_of_ne hx.symm, State.setV_getV_of_ne hy.symm, State.setV_getV,
    if_pos rfl]

end

/-- 8xy6 (R148). -/
theorem exec_shr (x y : Nibble) (s : State) :
    exec (.shr x y) s = next (flagThenShift shiftedRight shrFlag x y s) := rfl

/-- 8xyE (R150). -/
theorem exec_shl (x y : Nibble) (s : State) :
    exec (.shl x y) s = next (flagThenShift shiftedLeft shlFlag x y s) := rfl

/-- Settles O36: the flag is the remainder by 2 and the result the quotient. -/
theorem shiftRightWritesBothRegisters : Obligations.ShiftRightWritesBothRegisters := fun x y s _ _ hf hr =>
  (exec_shr x y s).trans (congrArg next
    (flagThenShift_eq ((shrFlag_eq_mod _).trans hf.symm) ((shiftedRight_eq_div _).trans hr.symm)))

/-- Settles O38: the flag is bit 3 in place and the result the double. -/
theorem shiftLeftFlagsBitThree : Obligations.ShiftLeftFlagsBitThree := fun x y s _ _ hf hr =>
  (exec_shl x y s).trans (congrArg next
    (flagThenShift_eq ((shlFlag_eq_ite _).trans hf.symm) ((shiftedLeft_eq_mod _).trans hr.symm)))

/-! ## VF as an operand -/

/-- A shift in the four columns of R153's table, for the `shift` and the `flag` of either row. -/
theorem flagThenShift_aliasing (shift flag : Byte → Byte) (x y : Nibble) {s t : State}
    (ht : t = flagThenShift shift flag x y s) :
    (x ≠ 15 → y ≠ 15 → t.getV 15 = flag (s.getV y) ∧ t.getV x = shift (s.getV y) ∧ t.getV y = shift (s.getV y)) ∧
      (x = 15 → y ≠ 15 → t.getV y = shift (s.getV y) ∧ t.getV 15 = shift (s.getV y)) ∧
      (x ≠ 15 → y = 15 → t.getV 15 = shift (flag (s.getV 15)) ∧ t.getV x = shift (flag (s.getV 15))) ∧
      (x = 15 → y = 15 → t.getV 15 = shift (flag (s.getV 15))) := by
  have hresult : ∀ z, z = x ∨ z = y → t.getV z = shift (if y = 15 then flag (s.getV y) else s.getV y) :=
    fun _ hz => ht ▸ flagThenShift_getV hz
  refine ⟨fun hx hy => ⟨ht ▸ flagThenShift_getV_vf hx hy, ?_⟩, fun hx hy => ?_, fun hx hy => ?_, fun hx hy => ?_⟩
  · simp only [hresult x (.inl rfl), hresult y (.inr rfl), if_neg hy, and_self]
  · simp only [hresult y (.inr rfl), hresult 15 (.inl hx.symm), if_neg hy, and_self]
  · simp only [hresult x (.inl rfl), hresult 15 (.inr hy.symm), hy, if_true, and_self]
  · simp only [hresult 15 (.inr hy.symm), hy, if_true]

/-- 8xy7 in the four columns of R153's table. -/
theorem subn_aliasing (x y : Nibble) {s t : State} (ht : t = flagThenResult (fun a b => b - a) subnFlag x y s) :
    (x ≠ 15 → y ≠ 15 → t.getV 15 = subnFlag (s.getV x) (s.getV y) ∧ t.getV x = s.getV y - s.getV x) ∧
      (x = 15 → y ≠ 15 → t.getV 15 = s.getV y - subnFlag (s.getV 15) (s.getV y)) ∧
      (x ≠ 15 → y = 15 → t.getV 15 = subnFlag (s.getV x) (s.getV 15) ∧
        t.getV x = subnFlag (s.getV x) (s.getV 15) - s.getV x) ∧
      (x = 15 → y = 15 → t.getV 15 = 0) := by
  subst ht
  refine ⟨fun hx hy => ⟨flagThenResult_getV_vf hx, ?_⟩, ?_, ?_, ?_⟩
  · rw [flagThenResult_getV_dest rfl, if_neg hx, if_neg hy]
  · rintro rfl hy
    rw [flagThenResult_getV_dest rfl, if_pos rfl, if_neg hy]
  · rintro hx rfl
    exact ⟨flagThenResult_getV_vf hx, by rw [flagThenResult_getV_dest rfl, if_neg hx, if_pos rfl]⟩
  · rintro rfl rfl
    rw [flagThenResult_getV_dest rfl, if_pos rfl, BitVec.sub_self]
    rfl

/-- Settles O39: one row for each of the three instructions. -/
theorem vfAliasingTable : Obligations.VfAliasingTable := by
  rintro x y s _ _ _ rfl rfl rfl
  refine ⟨⟨_, exec_shr x y s, ?shr⟩, ⟨_, exec_subn x y s, ?subn⟩, ⟨_, exec_shl x y s, ?shl⟩⟩
  case shr =>
    have hrow := flagThenShift_aliasing shiftedRight shrFlag x y (s := s) rfl
    rw [shiftedRight_shrFlag] at hrow
    exact hrow
  case subn =>
    have hrow := subn_aliasing x y (s := s) rfl
    simp only [subnFlag, flagOf_decide] at hrow
    exact hrow
  case shl =>
    have hrow := flagThenShift_aliasing shiftedLeft shlFlag x y (s := s) rfl
    simp only [shiftedLeft_eq_two_mul] at hrow
    exact hrow

end Sys2Proof.Machine
end

section
/-! The index register and memory transfer (42_index_memory R160 to R166): the values written to `I` as numbers, the
bytes that a block store leaves and the registers that a block load leaves, each behind the range check of R68. -/

namespace Sys2Proof.Machine

variable {s t u : State} {x k : Nibble}

/-! ## The index register -/

/-- The literal of Annn as a number (R160). -/
theorem zextAddr_eq_ofNat (nnn : Addr12) : zextAddr nnn = BitVec.ofNat 16 nnn.toNat :=
  (BitVec.ofNat_toNat 16 nnn).symm

/-- The sum of Fx1E is the sum of the numbers modulo 65536 (R161). -/
theorem add_zextByte_eq_ofNat_mod (w : Word) (b : Byte) :
    w + zextByte b = BitVec.ofNat 16 ((w.toNat + b.toNat) % 65536) := by
  unfold zextByte
  bv_omega

/-- The glyph address of Fx29 is five times the whole byte (R162). -/
theorem glyphAddr_eq_ofNat (b : Byte) : glyphAddr b = BitVec.ofNat 16 (5 * b.toNat) := by
  unfold glyphAddr zextByte
  bv_omega

/-- Settles O40: each of the three ends in `next` on the state with its value in `I`. -/
theorem indexRegisterWrites : Obligations.IndexRegisterWrites := by
  intro x nnn s
  rw [← zextAddr_eq_ofNat, ← add_zextByte_eq_ofNat_mod, ← glyphAddr_eq_ofNat]
  exact ⟨rfl, rfl, rfl⟩

/-! ## A block by its last offset -/

/-- A block whose last byte, at `I + last`, lies in memory. -/
theorem nextInSpan_last_inside {last : Nat} (h : s.i.toNat + last ≤ 0xFFF) :
    nextInSpan (last + 1) s t = .next (t.advance 2) :=
  nextInSpan_fits (last + 1) s t (.inr (Nat.succ_le_succ h))

/-- A block whose last byte, at `I + last`, lies beyond memory. -/
theorem nextInSpan_last_beyond {last : Nat} (h : 0xFFF < s.i.toNat + last) :
    nextInSpan (last + 1) s t = .next (s.raised (.memoryFault (if s.i.toNat < 0x1000 then 0x1000 else s.i))) :=
  nextInSpan_faults (last + 1) s t last.succ_pos (Nat.succ_lt_succ h)

/-- A byte inside a block store reads back from its offset. -/
theorem State.setBytesFrom_byteAt_inside {bs : List Byte} {j : Nat} {b : Byte} (h : bs[j]? = some b) (s : State)
    (a : Nat) : (s.setBytesFrom a bs).byteAt (a + j) = b := by
  obtain ⟨hj, -⟩ := List.getElem?_eq_some_iff.mp h
  rw [State.setBytesFrom_byteAt, if_pos (by omega), Nat.add_sub_cancel_left, h, Option.getD_some]

/-! ## Fx33 -/

/-- Fx33 (R163). -/
theorem exec_bcd (x : Nibble) (s : State) : exec (.bcd x) s = nextInSpan (2 + 1) s (written (.bcd x) s) := rfl

/-- Fx33 stores the digit number `j` of `V[x]` at `I + j`. -/
theorem written_bcd_byteAt {j : Nat} {b : Byte} (h : (decimalDigits (s.getV x))[j]? = some b) :
    (written (.bcd x) s).byteAt (s.i.toNat + j) = b :=
  State.setBytesFrom_byteAt_inside h s s.i.toNat

/-- Settles O41: the digits' bytes read back as numbers, and the bytes outside the block as before. -/
theorem bcdStoresThreeDigits : Obligations.BcdStoresThreeDigits := by
  refine fun x s => ⟨fun hfits => ?stores, fun hout => (exec_bcd x s).trans (nextInSpan_last_beyond hout)⟩
  have hhundreds : (written (.bcd x) s).byteAt s.i.toNat = s.getV x / 100 := written_bcd_byteAt (j := 0) rfl
  have htens : (written (.bcd x) s).byteAt (s.i.toNat + 1) = s.getV x / 10 % 10 := written_bcd_byteAt rfl
  have hones : (written (.bcd x) s).byteAt (s.i.toNat + 2) = s.getV x % 10 := written_bcd_byteAt rfl
  refine ⟨_, (exec_bcd x s).trans (nextInSpan_last_inside hfits), rfl, ?hundreds, ?tens, ?ones,
    fun _ ha => written_byteAt (i := .bcd x) ha⟩
  case hundreds => exact (congrArg BitVec.toNat hhundreds).trans BitVec.toNat_udiv
  case tens =>
    rw [State.advance_byteAt, htens, BitVec.toNat_umod, BitVec.toNat_udiv]
    rfl
  case ones => exact (congrArg BitVec.toNat hones).trans BitVec.toNat_umod

/-! ## Fx55 -/

/-- Fx55 (R165). -/
theorem exec_stm (x : Nibble) (s : State) : exec (.stm x) s = nextInSpan (x.toNat + 1) s (written (.stm x) s) := rfl

/-- Settles O42: the registers' bytes read back, and the bytes outside the block as before. -/
theorem storeRegistersToMemory : Obligations.StoreRegistersToMemory := fun x s =>
  ⟨fun hfits => ⟨_, (exec_stm x s).trans (nextInSpan_last_inside hfits), rfl, fun _ => written_stm_byteAt s,
    fun _ ha => written_byteAt (i := .stm x) ha⟩,
   fun hout => (exec_stm x s).trans (nextInSpan_last_beyond hout)⟩

/-! ## Fx65 -/

/-- Fx65 (R166). -/
theorem exec_ldm (x : Nibble) (s : State) : exec (.ldm x) s = nextInSpan (x.toNat + 1) s (written (.ldm x) s) := rfl

/-- Fx65 loads `V[k]`, for `k` up to `x`, from `I + k`. -/
theorem written_ldm_getV (h : k.toNat ≤ x.toNat) :
    (written (.ldm x) s).getV k = s.byteAt (s.i.toNat + k.toNat) := by
  have hk : k.toNat < blockLength x := Nat.lt_succ_of_le h
  unfold written State.getV
  rw [getElem_fillV, if_pos (by rw [State.length_bytesFrom]; omega), Nat.sub_zero,
    State.getElem?_bytesFrom _ s _ _ hk, Option.getD_some]

/-- Settles O43: the registers up to `V[x]` are loaded, and Fx65 may write no other. -/
theorem loadRegistersFromMemory : Obligations.LoadRegistersFromMemory := by
  refine fun x s => ⟨fun hfits => ?loads, fun hout => (exec_ldm x s).trans (nextInSpan_last_beyond hout)⟩
  refine ⟨_, (exec_ldm x s).trans (nextInSpan_last_inside hfits), rfl, fun k => ?_⟩
  rw [State.advance_getV]
  split
  · next hk => exact written_ldm_getV hk
  · next hk => exact written_getV (i := .ldm x) hk

/-! ## A store and a load from the same address -/

/-- What memory reads as is a matter of memory and the parameters alone. -/
theorem State.byteAt_congr (hmem : u.mem = t.mem) (hparams : u.params = t.params) (a : Nat) :
    u.byteAt a = t.byteAt a := by
  rw [State.byteAt, hmem, hparams, State.byteAt]

/-- Settles O44: Fx65 reads what Fx55 has stored, `I` being where it was. -/
theorem storeThenLoadRestoresRegisters : Obligations.StoreThenLoadRestoresRegisters := by
  intro x s t u hfits hstore hmem hparams hi
  obtain ⟨-, hstored⟩ := exec_stm_stores hfits hstore
  have hbase : u.i = s.i := hi.trans (exec_keeps (·.i) (fun _ _ _ _ => rfl) hstore rfl)
  obtain ⟨r, hload, -, hloaded⟩ := (loadRegistersFromMemory x u).1 (by rwa [hbase])
  refine ⟨r, hload, fun k hk => ?_⟩
  calc r.getV k
    _ = u.byteAt (s.i.toNat + k.toNat) := by rw [hloaded, if_pos hk, hbase]
    _ = t.byteAt (s.i.toNat + k.toNat) := State.byteAt_congr hmem hparams _
    _ = s.getV k := hstored k hk

end Sys2Proof.Machine
end

section
/-! The display (43_display R180 to R183): a blank screen, and a sprite's draw said pixel by pixel through the one bit
of the sprite that lands on the pixel. -/

namespace Sys2Proof.Machine

variable {s : State} {x y n : Nibble} {px py : Nat}

/-! ## 00E0 -/

/-- Settles O47: the display that 00E0 writes is the blank one. -/
theorem clearTurnsEveryPixelOff : Obligations.ClearTurnsEveryPixelOff := fun _ =>
  ⟨_, rfl, rfl, fun px _ py hpy => pixelOf_blank px py hpy⟩

/-! ## The bit of the sprite that lands on a pixel -/

/-- A sprite column lands on screen column `px` exactly when it is the one that `spriteCol` names. -/
theorem spriteCol_eq_iff {col : Nat} (hpx : px < 64) (hcol : col < 64) (left : Nat) :
    spriteCol px left = col ↔ (col + left) % 64 = px := by
  unfold spriteCol
  omega

/-- A sprite row lands on screen row `py` exactly when it is the one that `spriteRow` names. -/
theorem spriteRow_eq_iff {row : Nat} (hpy : py < 32) (hrow : row < 32) (top : Nat) :
    spriteRow py top = row ↔ (row + top) % 32 = py := by
  unfold spriteRow
  omega

/-- The bit of the sprite of Dxyn that lands on a pixel, off where no row or no column of the sprite does (R181). -/
def State.spriteBit (s : State) (x y n : Nibble) (px py : Nat) : Bool :=
  let row := spriteRow py (s.getV y).toNat
  let col := spriteCol px (s.getV x).toNat
  decide (row < n.toNat) && (decide (col < 8) && (s.byteAt (s.i.toNat + row)).getLsbD (7 - col))

/-- The bit is set exactly when some set bit of the sprite wraps to the pixel (R181). -/
theorem State.spriteBit_iff (s : State) (x y n : Nibble) (hpx : px < 64) (hpy : py < 32) :
    s.spriteBit x y n px py = true ↔
      ∃ row col, row < n.toNat ∧ col < 8 ∧ (s.byteAt (s.i.toNat + row)).getLsbD (7 - col) = true ∧
        (col + (s.getV x).toNat) % 64 = px ∧ (row + (s.getV y).toNat) % 32 = py := by
  have hn := n.isLt
  simp only [State.spriteBit, Bool.and_eq_true, decide_eq_true_eq]
  constructor
  · rintro ⟨hrow, hcol, hbit⟩
    exact ⟨_, _, hrow, hcol, hbit, (spriteCol_eq_iff hpx (by omega) _).mp rfl,
      (spriteRow_eq_iff hpy (by omega) _).mp rfl⟩
  · rintro ⟨row, col, hrow, hcol, hbit, hcolLands, hrowLands⟩
    rw [(spriteCol_eq_iff hpx (by omega) _).mpr hcolLands, (spriteRow_eq_iff hpy (by omega) _).mpr hrowLands]
    exact ⟨hrow, hcol, hbit⟩

/-! ## Dxyn -/

/-- Dxyn (R181). -/
theorem exec_drw (x y n : Nibble) (s : State) :
    exec (.drw x y n) s = nextInSpan n.toNat s (written (.drw x y n) s) := rfl

/-- Dxyn with its sprite in memory. -/
theorem exec_drw_inside (h : n.toNat = 0 ∨ s.i.toNat + n.toNat - 1 ≤ 0xFFF) :
    exec (.drw x y n) s = .next ((written (.drw x y n) s).advance 2) := by
  have hmem : memSize = 0x1000 := rfl
  exact nextInSpan_fits n.toNat s _ (by omega)

/-- Dxyn with its sprite beyond memory (R68). -/
theorem exec_drw_beyond (hpos : 0 < n.toNat) (h : 0xFFF < s.i.toNat + n.toNat - 1) :
    exec (.drw x y n) s = .next (s.raised (.memoryFault (if s.i.toNat < 0x1000 then 0x1000 else s.i))) := by
  have hmem : memSize = 0x1000 := rfl
  exact nextInSpan_faults n.toNat s _ hpos (by omega)

/-- Dxyn toggles a pixel by the bit of the sprite that lands on it. -/
theorem written_drw_pixel (s : State) (x y n : Nibble) (hpx : px < 64) (hpy : py < 32) :
    (written (.drw x y n) s).pixel px py = (s.pixel px py ^^ s.spriteBit x y n px py) := by
  have hn := n.isLt
  have hlength : (s.bytesFrom s.i.toNat n.toNat).length = n.toNat := s.length_bytesFrom _ _
  have hblit := pixelOf_drawRows s.disp px py (s.bytesFrom s.i.toNat n.toNat) (s.getV x).toNat (s.getV y).toNat
    hpx hpy (by omega)
  refine hblit.trans (congrArg (s.pixel px py ^^ ·) ?_)
  rw [hlength, State.spriteBit]
  by_cases hrow : spriteRow py (s.getV y).toNat < n.toNat
  · rw [State.getElem?_bytesFrom _ s _ _ hrow, Option.getD_some]
  · simp only [hrow, decide_false, Bool.false_and]

/-- Settles O48: the bit that lands on a pixel is set exactly when the draw changes the pixel. -/
theorem drawTogglesWrappedSpriteBits : Obligations.DrawTogglesWrappedSpriteBits := by
  refine fun x y n s => ⟨fun hfits => ?draws, fun ⟨hpos, hout⟩ => exec_drw_beyond hpos hout⟩
  refine ⟨_, exec_drw_inside hfits, rfl, fun px hpx py hpy => ?_⟩
  have hpixel : ((written (.drw x y n) s).advance 2).pixel px py = (s.pixel px py ^^ s.spriteBit x y n px py) :=
    written_drw_pixel s x y n hpx hpy
  rw [hpixel, ← s.spriteBit_iff x y n hpx hpy]
  cases s.spriteBit x y n px py <;> simp

/-- The second of two equal draws undoes the first: it finds the same sprite at the same place (R183). -/
theorem written_drw_twice_disp (s : State) (x y n : Nibble) :
    (written (.drw x y n) ((written (.drw x y n) s).advance 2)).disp = s.disp := by
  refine display_ext fun px hpx py hpy => ?_
  calc (written (.drw x y n) ((written (.drw x y n) s).advance 2)).pixel px py
    _ = ((written (.drw x y n) s).pixel px py ^^ s.spriteBit x y n px py) := written_drw_pixel _ x y n hpx hpy
    _ = (s.pixel px py ^^ s.spriteBit x y n px py ^^ s.spriteBit x y n px py) := by
      rw [written_drw_pixel s x y n hpx hpy]
    _ = s.pixel px py := by rw [Bool.xor_assoc, Bool.xor_self, Bool.xor_false]

/-- Settles O49: the display is restored, and each draw writes nothing else but `PC`. -/
theorem drawTwiceRestoresDisplay : Obligations.DrawTwiceRestoresDisplay := by
  intro x y n s hfits
  refine ⟨_, _, exec_drw_inside hfits, exec_drw_inside (by exact hfits), ?_⟩
  calc (written (.drw x y n) ((written (.drw x y n) s).advance 2)).advance 2
    _ = { s with
          disp := (written (.drw x y n) ((written (.drw x y n) s).advance 2)).disp, pc := s.pc + 2 + 2 } := rfl
    _ = { s with pc := s.pc + 4 } := by
      rw [written_drw_twice_disp, BitVec.add_assoc]
      rfl

end Sys2Proof.Machine
end

section
/-! The keypad, the timers and the random source (44_keypad_timer_random R190 to R196): the key skips, the key request
and its delivery, and a core that waits or has halted, of which the agents reach only `DT`, `ST` and `KEY`. -/

namespace Sys2Proof.Machine

variable {s t : State}

/-! ## Random byte and timers -/

/-- Settles O50: the byte drawn is `Config.rnd` at the counter, and a mask bit that is 0 clears the result's bit. -/
theorem randomByteUnderMask : Obligations.RandomByteUnderMask := by
  refine fun x nn s => ⟨Config.rnd s.draws, rfl, rfl, fun b hb => ?_⟩
  rw [BitVec.getLsbD_and, hb, Bool.and_false]

/-- Settles O52: each of the three writes one element and ends in `next`. -/
theorem timerReadsAndWrites : Obligations.TimerReadsAndWrites := fun _ _ => ⟨rfl, rfl, rfl⟩

/-! ## Skips on a key -/

/-- A byte up to 15 names a key. -/
theorem keyNamed_key {b : Byte} (h : b.toNat < 16) : keyNamed s b = some s.key[b.toNat] := dif_pos h

/-- A byte above 15 names none. -/
theorem keyNamed_none {b : Byte} (h : 15 < b.toNat) : keyNamed s b = none := dif_neg (by omega)

/-- A skip on a condition. -/
theorem skipIf_eq (c : Bool) (s : State) : skipIf c s = .next { s with pc := if c then s.pc + 4 else s.pc + 2 } := by
  cases c <;> rfl

/-- A skip on the opposite condition. -/
theorem skipIf_not (c : Bool) (s : State) :
    skipIf (!c) s = .next { s with pc := if c then s.pc + 2 else s.pc + 4 } := by
  cases c <;> rfl

/-- Settles O51: whether `V[x]` names a key decides between skip and fault. -/
theorem keySkipsReadKeyState : Obligations.KeySkipsReadKeyState := by
  refine fun x s => ⟨fun hkey => ?named, fun hkey => ?unnamed⟩ <;> rw [exec, exec, execSkp, execSknp]
  case named =>
    rw [keyNamed_key hkey]
    exact ⟨skipIf_eq _ s, skipIf_not _ s⟩
  case unnamed =>
    rw [keyNamed_none hkey]
    exact ⟨rfl, rfl⟩

/-! ## The key request and its delivery -/

/-- A key value completes the waiting Fx0A (R194). -/
theorem applyEvent_keyEvent_waiting {x : Nibble} (h : s.run = .waitKey x) (k : Nibble) :
    applyEvent (.keyEvent k) s = .next { s.setV x (zextKey k) with pc := s.pc + 2, run := .running } := by
  rw [applyEvent, State.offerKey, h]
  rfl

/-- A key value that no request waits for is not taken (R43). -/
theorem applyEvent_keyEvent_dropped (h : ∀ x, s.run ≠ .waitKey x) (k : Nibble) :
    applyEvent (.keyEvent k) s = .next s := by
  rw [applyEvent, State.offerKey]
  cases hrun : s.run with
  | waitKey x => exact absurd hrun (h x)
  | running | halted => rfl

/-- A key value as a byte is its number. -/
theorem zextKey_eq_ofNat (k : Nibble) : zextKey k = BitVec.ofNat 8 k.toNat := (BitVec.ofNat_toNat 8 k).symm

/-- Settles O53: the request, its completion, and the value that is dropped. -/
theorem keyWaitAndDelivery : Obligations.KeyWaitAndDelivery := fun _ k _ =>
  ⟨rfl, fun hwait => zextKey_eq_ofNat k ▸ applyEvent_keyEvent_waiting hwait k,
   fun hidle => applyEvent_keyEvent_dropped hidle k⟩

/-! ## What the agents reach of a core that does not run -/

/-- `t` is `s` but for the timers and the key flags. -/
def OnlyTimersAndKeys (s t : State) : Prop := ∃ dt st key, t = { s with dt := dt, st := st, key := key }

/-- Once a step request was taken, an action that is no reset, and no key value that a request waits for, reaches only
the timers and the key flags: loads come too late (R45). -/
theorem applyEvent_onlyTimersAndKeys {e : Event} (hstarted : s.started = true) (hreset : e ≠ .reset)
    (hkey : ∀ k, e = .keyEvent k → ∀ x, s.run ≠ .waitKey x) (h : applyEvent e s = .next t) :
    OnlyTimersAndKeys s t := by
  cases e with
  | reset => exact absurd rfl hreset
  | load offset bytes =>
    cases (applyEvent_load_started hstarted offset bytes).symm.trans h
    exact ⟨_, _, _, rfl⟩
  | keyEvent k =>
    cases (applyEvent_keyEvent_dropped (hkey k rfl) k).symm.trans h
    exact ⟨_, _, _, rfl⟩
  | tickDt | tickSt | setKey | readDisplay =>
    cases h
    exact ⟨_, _, _, rfl⟩

/-- A batch of such actions reaches no more than each of them. -/
theorem applyEvents_onlyTimersAndKeys {es : List Event} (hstarted : s.started = true) (hreset : Event.reset ∉ es)
    (hkey : ∀ k, Event.keyEvent k ∈ es → ∀ x, s.run ≠ .waitKey x) (h : applyEvents es s = .next t) :
    OnlyTimersAndKeys s t := by
  induction es generalizing s with
  | nil =>
    cases h
    exact ⟨_, _, _, rfl⟩
  | cons e es ih =>
    obtain ⟨u, he, hes⟩ := (andThen_eq_next _ _ _).mp h
    obtain ⟨hne, hrest⟩ := not_or.mp (mt List.mem_cons.mpr hreset)
    obtain ⟨_, _, _, rfl⟩ := applyEvent_onlyTimersAndKeys hstarted (Ne.symm hne)
      (fun k hk => hkey k (hk ▸ List.mem_cons_self)) he
    obtain ⟨_, _, _, rfl⟩ := ih (by exact hstarted) hrest
      (by exact fun k hk => hkey k (List.mem_cons_of_mem e hk)) hes
    exact ⟨_, _, _, rfl⟩

/-- The agents act out what is due, on the state whose schedule has moved on. -/
theorem agentsAct_eq (s : State) : agentsAct s = applyEvents s.due { s with schedule := s.schedule.tail } := by
  cases hq : s.schedule with
  | nil =>
    rw [agentsAct_nil hq, State.due, hq]
    exact congrArg (fun later => Host.Outcome.next { s with schedule := later }) hq
  | cons batch later =>
    rw [agentsAct, State.due, hq]
    rfl

/-- A step of a core that waits or has halted, with neither a reset nor an awaited key value due, changes the timers
and the key flags at most, beside the schedule (R194, R219). -/
theorem step_idle (hs : s.Inv) (hrun : s.run ≠ .running) (hreset : Event.reset ∉ s.due)
    (hkey : ∀ k, Event.keyEvent k ∈ s.due → ∀ x, s.run ≠ .waitKey x) (h : step s = .next t) :
    t = { s with dt := t.dt, st := t.st, key := t.key, schedule := s.schedule.tail } := by
  obtain ⟨u, hagents, hrequest⟩ := (step_eq_next s t).mp h
  rw [agentsAct_eq] at hagents
  obtain ⟨_, _, _, rfl⟩ := applyEvents_onlyTimersAndKeys (by exact hs.idleStarted hrun) hreset (by exact hkey) hagents
  cases (stepRequest_idle (by exact hrun)).symm.trans hrequest
  rfl

/-- Settles O17: the waiting core does not run, and no key value is due. -/
theorem waitingCoreKeepsState : Obligations.WaitingCoreKeepsState := fun _ _ _ hs hwait hreset hkey h =>
  step_idle hs (by simp [hwait]) hreset (fun k hk => absurd hk (hkey k)) h

end Sys2Proof.Machine
end

section
/-! The fault mechanism (60_exceptions R210 to R220): fault entry and the instructions that reach it, the illegal word,
the halted core, and the step that always answers unless a load is too long. -/

namespace Sys2Proof.Machine

variable {s t : State} {f g : CoreFault} {x : Nibble} {n : Nat}

/-! ## The illegal word -/

/-- An illegal word is refused with its family, the word being latched already (R98, R211). -/
theorem decodeAndExecute_illegal {w : Word} (h : legalWord w = false) (s : State) :
    decodeAndExecute w s = raise (.unknownInstruction w (opField w)) { s with ir := w } := by
  unfold decodeAndExecute
  rw [(decodeAcceptsExactlyLegalWords w).2 h]

/-- Settles O10: the cycle hands the fetched word to the decoder, which refuses it. -/
theorem illegalWordHaltsCore : Obligations.IllegalWordHaltsCore := by
  intro s w hfetch hillegal
  unfold cycle
  rw [hfetch]
  exact decodeAndExecute_illegal hillegal s

/-! ## The step that answers -/

/-- A load answers a next state if its bytes fit, and every other action always does. -/
theorem applyEvent_answers {e : Event}
    (hfits : ∀ offset bytes, e = .load offset bytes → offset + bytes.length ≤ memSize) (s : State) :
    ∃ t, applyEvent e s = .next t := by
  cases e with
  | load offset bytes =>
    cases hstarted : s.started with
    | true => exact ⟨s, applyEvent_load_started hstarted offset bytes⟩
    | false => exact ⟨_, (applyEvent_load_fresh hstarted offset bytes).trans (loadData_fits (hfits _ _ rfl))⟩
  | tickDt | tickSt | setKey | keyEvent | readDisplay | reset => exact ⟨_, rfl⟩

/-- A batch whose loads fit answers a next state. -/
theorem applyEvents_answers {es : List Event}
    (hfits : ∀ offset bytes, Event.load offset bytes ∈ es → offset + bytes.length ≤ memSize) (s : State) :
    ∃ t, applyEvents es s = .next t := by
  induction es generalizing s with
  | nil => exact ⟨s, rfl⟩
  | cons e es ih =>
    obtain ⟨u, hu⟩ := applyEvent_answers (fun o bs he => hfits o bs (he ▸ List.mem_cons_self)) s
    obtain ⟨t, ht⟩ := ih (fun o bs he => hfits o bs (List.mem_cons_of_mem e he)) u
    exact ⟨t, (andThen_eq_next _ _ _).mpr ⟨u, hu, ht⟩⟩

/-- The loads that must fit are those among the actions due. -/
theorem State.loadsFit.due (h : s.loadsFit) (offset : Nat) (bytes : List Byte)
    (hload : Event.load offset bytes ∈ s.due) : offset + bytes.length ≤ memSize := by
  unfold State.due at hload
  cases hq : s.schedule with
  | nil => simp [hq] at hload
  | cons batch later => exact h batch later hq offset bytes (by simpa [hq] using hload)

/-- A step request always answers a next state: a fault is one too (R217). -/
theorem stepRequest_answers (s : State) : ∃ t, stepRequest s = .next t := by
  rcases stepRequest_cases s with ⟨-, hcycle⟩ | ⟨-, hidle⟩
  · obtain ⟨t, ht, -⟩ := cycle_answers { s with started := true }
    exact ⟨t, hcycle.trans ht⟩
  · exact ⟨s, hidle⟩

/-- Settles O12: the agents answer as their loads fit, and the step request answers whatever they leave. -/
theorem stepAnswersNextUnlessLoadOversized : Obligations.StepAnswersNextUnlessLoadOversized := by
  intro s hfit
  obtain ⟨u, hu⟩ := applyEvents_answers hfit.due { s with schedule := s.schedule.tail }
  obtain ⟨t, ht⟩ := stepRequest_answers u
  exact ⟨t, (step_eq_next s t).mpr ⟨u, (agentsAct_eq s).trans hu, ht⟩⟩

/-! ## The halted core -/

/-- Settles O16: the halted core does not run, and waits for no key value either. -/
theorem haltedCoreStaysHalted : Obligations.HaltedCoreStaysHalted := fun _ _ _ hs hhalted hreset h =>
  step_idle hs (by simp [hhalted]) hreset (fun _ _ _ => by simp [hhalted]) h

/-! ## Fault entry -/

/-- Settles O58: of the three kinds of answer only fault entry halts a running core. -/
theorem faultingInstructionWritesNothing : Obligations.FaultingInstructionWritesNothing := by
  intro i s t hrun h ⟨c, hc⟩
  rcases answers_of_exec h with ⟨f, rfl⟩ | ⟨x, -, rfl⟩ | hcompletes
  · exact ⟨f, rfl, rfl⟩
  · cases hc
  · cases hc.symm.trans (hcompletes.run.trans hrun)

/-- Fault entry determines its fault, by the record that it sets. -/
theorem next_raised_inj (h : Host.Outcome.next (s.raised g) = (.next (s.raised f) : Result)) : f = g := by
  have hstate : s.raised g = s.raised f := Host.Outcome.next.inj h
  have hrecord := congrArg State.fault hstate
  rw [State.raised_fault, State.raised_fault] at hrecord
  cases hrecord
  rfl

/-- An answer that has kept the run state of a running core is no fault entry. -/
theorem not_raised_of_run_eq (hrun : s.run = .running) (h : Host.Outcome.next t = (.next (s.raised f) : Result))
    (ht : t.run = s.run) : False := by
  cases h
  cases ht.trans hrun

/-- 2nnn faults on a full stack (R212). -/
theorem exec_call_raised {nnn : Addr12} (hrun : s.run = .running) (h : exec (.call nnn) s = .next (s.raised f)) :
    16 ≤ s.sp.toNat ∧ f = .stackOverflow s.ir := by
  rcases Nat.lt_or_ge s.sp.toNat 16 with hfree | hfull
  · exact (not_raised_of_run_eq hrun ((exec_call_free nnn hfree).symm.trans h) rfl).elim
  · exact ⟨hfull, next_raised_inj ((exec_call_full nnn hfull).symm.trans h)⟩

/-- 00EE faults on an empty stack (R213). -/
theorem exec_ret_raised (hrun : s.run = .running) (hsp : s.sp.toNat ≤ 16) (h : exec .ret s = .next (s.raised f)) :
    s.sp.toNat = 0 ∧ f = .stackUnderflow s.ir := by
  rcases Nat.eq_zero_or_pos s.sp.toNat with hempty | hlive
  · exact ⟨hempty, next_raised_inj ((exec_ret_empty hempty).symm.trans h)⟩
  · exact (not_raised_of_run_eq hrun ((exec_ret_live hlive hsp).symm.trans h) rfl).elim

/-- Ex9E and ExA1 fault on a value that names no key (R215). -/
theorem exec_keySkip_raised {i : Instr} (hi : i = .skp x ∨ i = .sknp x) (hrun : s.run = .running)
    (h : exec i s = .next (s.raised f)) : 15 < (s.getV x).toNat ∧ f = .keyIndexFault (s.getV x) := by
  obtain ⟨hnamed, hunnamed⟩ := keySkipsReadKeyState x s
  rcases Nat.lt_or_ge 15 (s.getV x).toNat with hout | hin
  · obtain ⟨hskp, hsknp⟩ := hunnamed hout
    refine ⟨hout, ?_⟩
    rcases hi with rfl | rfl
    · exact next_raised_inj (hskp.symm.trans h)
    · exact next_raised_inj (hsknp.symm.trans h)
  · obtain ⟨hskp, hsknp⟩ := hnamed (Nat.lt_succ_of_le hin)
    rcases hi with rfl | rfl
    · exact (not_raised_of_run_eq hrun (hskp.symm.trans h) rfl).elim
    · exact (not_raised_of_run_eq hrun (hsknp.symm.trans h) rfl).elim

/-- A block instruction faults on a block that leaves memory (R68, R214). -/
theorem exec_block_raised {i : Instr} (hexec : exec i s = nextInSpan n s (written i s)) (hrun : s.run = .running)
    (h : exec i s = .next (s.raised f)) :
    (0 < n ∧ 0xFFF < s.i.toNat + n - 1) ∧ f = .memoryFault (if s.i.toNat < 0x1000 then 0x1000 else s.i) := by
  have hmem : memSize = 0x1000 := rfl
  rw [hexec] at h
  rcases nextInSpan_cases n s (written i s) with ⟨-, hnext⟩ | ⟨hout, hfault⟩
  · exact (not_raised_of_run_eq hrun (hnext.symm.trans h) (written_run i s)).elim
  · exact ⟨by omega, next_raised_inj (hfault.symm.trans h)⟩

/-- The flag of 8xy4 and 8xy5 leaves `RUN` alone. -/
theorem withAddSubFlag_run (s : State) (b : Byte) : (withAddSubFlag s b).run = s.run := by
  rcases withAddSubFlag_cases s b with heq | ⟨-, heq⟩ <;> rw [heq]
  rfl

/-- Settles O59: the eight instructions that can fault by the lemmas on each, and no other changes `RUN` to halted. -/
theorem faultsOfEachInstruction : Obligations.FaultsOfEachInstruction := by
  intro i s f hrun hsp h
  cases i with
  | call nnn =>
    obtain ⟨hfull, hf⟩ := exec_call_raised hrun h
    exact .inl ⟨nnn, rfl, Nat.le_antisymm hsp hfull, hf⟩
  | ret =>
    obtain ⟨hempty, hf⟩ := exec_ret_raised hrun hsp h
    exact .inr (.inl ⟨rfl, hempty, hf⟩)
  | skp x => exact .inr (.inr (.inl ⟨x, .inl rfl, exec_keySkip_raised (.inl rfl) hrun h⟩))
  | sknp x => exact .inr (.inr (.inl ⟨x, .inr rfl, exec_keySkip_raised (.inr rfl) hrun h⟩))
  | bcd x =>
    obtain ⟨⟨-, hout⟩, hf⟩ := exec_block_raised (exec_bcd x s) hrun h
    exact .inr (.inr (.inr ⟨.inl ⟨x, rfl, hout⟩, hf⟩))
  | stm x =>
    obtain ⟨⟨-, hout⟩, hf⟩ := exec_block_raised (exec_stm x s) hrun h
    exact .inr (.inr (.inr ⟨.inr (.inl ⟨x, rfl, hout⟩), hf⟩))
  | ldm x =>
    obtain ⟨⟨-, hout⟩, hf⟩ := exec_block_raised (exec_ldm x s) hrun h
    exact .inr (.inr (.inr ⟨.inr (.inr (.inl ⟨x, rfl, hout⟩)), hf⟩))
  | drw x y n =>
    obtain ⟨hout, hf⟩ := exec_block_raised (exec_drw x y n s) hrun h
    exact .inr (.inr (.inr ⟨.inr (.inr (.inr ⟨x, y, n, rfl, hout⟩)), hf⟩))
  | add | sub => exact (not_raised_of_run_eq hrun h (withAddSubFlag_run s _)).elim
  | keyw x => cases congrArg State.run (Host.Outcome.next.inj h)
  | _ => exact (not_raised_of_run_eq hrun h rfl).elim

end Sys2Proof.Machine
end

section
/-! Boot and the finished program (70_reset_and_hazards R243, R244, R247): the step request that runs a fetched
instruction, the jump to its own address, and the first step after reset and load. -/

namespace Sys2Proof.Machine

variable {s t : State} {w : Word} {i : Instr}

/-- A cycle decodes and executes the word it fetches. -/
theorem cycle_of_fetch (h : fetch s = .ok w) : cycle s = decodeAndExecute w s := by
  unfold cycle
  rw [h]

/-- A step request to a running core whose fetched word decodes is that instruction's meaning (R90). -/
theorem stepRequest_of_fetch (hrun : s.run = .running) (hfetch : fetch s = .ok w) (hdecode : decodeWord w = .ok i) :
    stepRequest s = exec i { s with ir := w, started := true } :=
  calc stepRequest s
      = cycle { s with started := true } := stepRequest_running hrun
    _ = decodeAndExecute w { s with started := true } := cycle_of_fetch (by exact hfetch)
    _ = exec i { s with ir := w, started := true } := decodeAndExecute_ok hdecode _

/-! ## The finished program -/

/-- The address of a whole word of memory is determined by its low 12 bits, the literal `nnn`. -/
theorem setWidth_low12 {a : Word} (h : a.toNat ≤ 0x0FFE) : (a.setWidth 12).setWidth 16 = a := by
  bv_omega

/-- The word of the jump to an address is the jump's pattern with the address (R97). -/
theorem encode_jp_setWidth {a : Word} (h : a.toNat ≤ 0x0FFE) : encode (.jp (a.setWidth 12)) = 0x1000 ||| a := by
  rw [encode, encAddr, setWidth_low12 h]

/-- Settles O18: the fetched word is the jump to `PC`, which writes into `PC` the value it holds; the fetch reads
neither `IR` nor `started`. -/
theorem finishedProgramStaysFinished : Obligations.FinishedProgramStaysFinished := by
  rintro s ⟨hrun, hfetch, hpc⟩
  have hdecode : decodeWord (0x1000 ||| s.pc) = .ok (.jp (s.pc.setWidth 12)) :=
    encode_jp_setWidth hpc ▸ decodeWord_encode _
  have hstep : stepRequest s = .next { s with ir := 0x1000 ||| s.pc, started := true } := by
    rw [stepRequest_of_fetch hrun hfetch hdecode, jumpSetsPc, setWidth_low12 hpc]
  exact ⟨hstep, hrun, hfetch, hpc⟩

/-! ## Boot -/

/-- Bytes stored at `PC` are what the next fetch reads, the first one as the high byte (R91). -/
theorem fetch_setBytesFrom_pc (hpc : s.pc.toNat ≤ 0xFFE) (hi lo : Byte) (rest : List Byte) :
    fetch (s.setBytesFrom s.pc.toNat (hi :: lo :: rest)) = .ok (wordOfBytes hi lo) := by
  have hhi : (s.setBytesFrom s.pc.toNat (hi :: lo :: rest)).byteAt s.pc.toNat = hi :=
    State.setBytesFrom_byteAt_inside (j := 0) rfl s _
  have hlo : (s.setBytesFrom s.pc.toNat (hi :: lo :: rest)).byteAt (s.pc.toNat + 1) = lo :=
    State.setBytesFrom_byteAt_inside (j := 1) rfl s _
  rw [fetch_inside _ (by exact hpc), State.setBytesFrom_pc, hhi, hlo]

/-- A load that is alone in its batch, before the first step request, is all that the agents do (R45). -/
theorem agentsAct_load {offset : Nat} {bytes : List Byte} {later : List (List Event)} (hfresh : s.started = false)
    (h : loadData offset bytes { s with schedule := later } = .next t) :
    agentsAct { s with schedule := [.load offset bytes] :: later } = .next t :=
  (andThen_eq_next _ _ _).mpr ⟨t, (applyEvent_load_fresh (by exact hfresh) offset bytes).trans h, rfl⟩

/-- Settles O23: the program fits, the agents load it at the reset value of `PC`, and the step request fetches its
first word. -/
theorem bootRunsFirstProgramWord : Obligations.BootRunsFirstProgramWord := by
  intro p d later hi lo rest i hlen hdecode
  have hfits : 0x200 + (hi :: lo :: rest).length ≤ memSize := by
    simp only [List.length_cons, memSize]
    omega
  have hpc : (State.afterReset p d later).pc.toNat ≤ 0xFFE := by simp [State.afterReset]
  have hload := loadData_fits (s := State.afterReset p d later) hfits
  have hagents := agentsAct_load (s := State.afterReset p d later) rfl hload
  have hfetch := fetch_setBytesFrom_pc hpc hi lo rest
  exact ⟨_, hload, (step_of_agentsAct hagents).trans (stepRequest_of_fetch rfl hfetch hdecode)⟩

end Sys2Proof.Machine
end
